-- ==== Sys2Proof/Word.lean ====
section
/-! DEFINITION. The words of the block (spec/00_scope.md section 6, spec/30_encoding.md R42):
the binary32 pattern, the command word, the pixel and the two enumerations a pixel write is
chosen by. Bit 0 is the least significant bit everywhere. -/

namespace Sys2Proof

/-- One byte of a serialised pixel (R31). -/
abbrev Byte := BitVec 8

/-- A channel value: one of the 2^32 bit patterns of IEEE 754 binary32 (R60, section 6.2). -/
abbrev F32 := BitVec 32

/-- The one command length, 256 bits (R42). -/
abbrev CmdWord := BitVec 256

/-- A pixel packed on a port (R31). -/
abbrev PixelBits := BitVec 128

/-- A pixel: four channels, a value with no identity beyond its bits (R10, section 6.3). -/
structure Pixel where
  r : F32
  g : F32
  b : F32
  a : F32
  deriving DecidableEq, Repr

/-- The four blend modes in the source's order (R2, R49). -/
inductive BlendMode where
  | none
  | add
  | alpha
  | clip
  deriving DecidableEq, Repr

/-- The two bounds modes in the source's order (R3, R49). -/
inductive BoundsMode where
  | checked
  | unchecked
  deriving DecidableEq, Repr

end Sys2Proof
end

