-- ==== Sys2Proof/Config.lean ====
section
/-! DEFINITION. The constants of the block (spec/00_scope.md R7) and the free values the spec
leaves open (spec/93_implementation_defined.md U3, U6, U8). A free value is an opaque constant:
no proof can see what it is. -/

namespace Sys2Proof.Config

/-- `ONE`, 1.0 (section 6.2). -/
def one : F32 := 0x3F800000#32

/-- `ZERO`, +0.0 (section 6.2). -/
def zero : F32 := 0x00000000#32

/-- `CLIP_T`, the binary32 value nearest 0.99 (R7, R72, D4). -/
def clipT : F32 := 0x3F7D70A4#32

/-- `OPACITY_RESET`, 1.0 (R7, R23). -/
def opacityReset : F32 := 0x3F800000#32

/-- `INIT_PIXEL` at the spec's own default (R7, R23, D18).
DESIGN CHOICE: the spec leaves it an open parameter; log 2. -/
def initPixel : Pixel := ⟨zero, zero, zero, zero⟩

/-- The instance `State.reset` describes: `WIDTH`.
DESIGN CHOICE: an instantiation parameter (R7, D7); the spec's own examples use 4; log 3. -/
def resetWidth : Nat := 4

/-- The instance `State.reset` describes: `HEIGHT`.
DESIGN CHOICE: an instantiation parameter (R7, D7); the spec's own examples use 3; log 3. -/
def resetHeight : Nat := 3

/-- Free value: the sign of the NaN that draw `draw` gives lane `lane` (R65, U3; log 6). -/
opaque freeNaNSign (draw lane : Nat) : Bool

/-- Free value: the fraction, less one, of the NaN that draw `draw` gives lane `lane`. A NaN's
fraction is one of the 2^23 - 1 non-zero ones (R65, U3; log 6). -/
opaque freeNaNFraction (draw lane : Nat) : Fin 8388607

/-- Free value: what `rsp` shows at sample `sample` while `rsp_valid = 0` (R45, U8; log 13). -/
opaque freeRsp (sample : Nat) : PixelBits

/-- Free value: what `so_val` shows at sample `sample` for `so_idx >= LENGTH` (R55, U6; log 13). -/
opaque freeScanOut (sample : Nat) (idx : BitVec 31) : PixelBits

end Sys2Proof.Config
end

