-- ==== Sys2Proof/Machine/Float.lean ====
section
/-! DEFINITION. binary32 arithmetic (spec/40_pixel_write.md R60 to R65). A finite value is held as
a natural number of units of 2^-149 (the smallest subnormal), so sums and products are exact and
are rounded once. No operation is fused, widened or flushed (R61, R66, R135). -/

namespace Sys2Proof.Machine

/-! ## The format (R60) -/

def F32.sign (v : F32) : Bool := v.msb
def F32.exponent (v : F32) : Nat := (v.extractLsb' 23 8).toNat
def F32.fraction (v : F32) : Nat := (v.extractLsb' 0 23).toNat

/-- Exponent all ones, fraction non-zero (R60). -/
def F32.isNaN (v : F32) : Bool := decide (F32.exponent v = 255 ∧ F32.fraction v ≠ 0)

/-- Exponent all ones, fraction zero. -/
def F32.isInf (v : F32) : Bool := decide (F32.exponent v = 255 ∧ F32.fraction v = 0)

/-- `+0.0` or `-0.0`. -/
def F32.isZero (v : F32) : Bool := decide (F32.exponent v = 0 ∧ F32.fraction v = 0)

/-- Neither infinite nor NaN. -/
def F32.isFinite (v : F32) : Bool := decide (F32.exponent v ≠ 255)

/-- The magnitude of a finite value in units of 2^-149: a subnormal is its fraction, a normal
number has the hidden bit and is scaled by its exponent (R60, bias 127). -/
def F32.magnitude (v : F32) : Nat :=
  if F32.exponent v = 0 then F32.fraction v
  else (2 ^ 23 + F32.fraction v) * 2 ^ (F32.exponent v - 1)

/-- The exact real value of a finite `v`, in units of 2^-149. -/
def F32.exact (v : F32) : Int :=
  if F32.sign v then -(F32.magnitude v : Int) else F32.magnitude v

/-- The pattern with this sign bit and these lower 31 bits. -/
def F32.ofSignBits (sign : Bool) (bits : Nat) : F32 :=
  BitVec.ofBool sign ++ BitVec.ofNat 31 bits

/-- The lower 31 bits of an infinity. -/
def F32.infBits : Nat := 0x7F800000

/-- `v` with its sign bit inverted (R63). -/
def F32.negate (v : F32) : F32 := v ^^^ 0x80000000#32

/-! ## NaN results (R65) -/

/-- Some NaN: exponent `0xFF`, non-zero fraction, both free (U3; log 6). -/
def freeNaN (draw lane : Nat) : F32 :=
  BitVec.ofBool (Config.freeNaNSign draw lane) ++ 0xFF#8 ++
    BitVec.ofNat 23 ((Config.freeNaNFraction draw lane).val + 1)

/-- The NaNs of one draw, one per lane (R65, R67). -/
def freeNaNs (draw : Nat) : Pixel :=
  ⟨freeNaN draw 0, freeNaN draw 1, freeNaN draw 2, freeNaN draw 3⟩

/-! ## Rounding to nearest, ties to even (R61, R62) -/

/-- `n / d` rounded to the nearest integer, a tie to the even one. -/
def roundTiesEven (n d : Nat) : Nat :=
  if d < 2 * (n % d) ∨ (2 * (n % d) = d ∧ n / d % 2 = 1) then n / d + 1 else n / d

/-- The lower 31 bits of the binary32 value nearest `n * 2^-(149+k)`. `cut` is the place of the
result's last significant bit: never below 2^-149 (gradual underflow), and 24 bits below the top
of `n`. A result beyond the format is an infinity (R61). -/
def roundBits (k n : Nat) : Nat :=
  let cut := max k (Nat.log2 n - 23)
  min ((cut - k) * 2 ^ 23 + roundTiesEven n (2 ^ cut)) F32.infBits

/-! ## The operations. `nan` is the NaN a NaN result is given (R65). -/

/-- The binary32 product (R61). -/
def fmul (nan a b : F32) : F32 :=
  let sign := F32.sign a ^^ F32.sign b
  if F32.isNaN a || F32.isNaN b then nan
  else if F32.isInf a || F32.isInf b then
    if F32.isZero a || F32.isZero b then nan else F32.ofSignBits sign F32.infBits
  else F32.ofSignBits sign (roundBits 149 (F32.magnitude a * F32.magnitude b))

/-- The binary32 sum (R62). -/
def fadd (nan a b : F32) : F32 :=
  let sum := F32.exact a + F32.exact b
  if F32.isNaN a || F32.isNaN b then nan
  else if F32.isInf a then
    if F32.isInf b && (F32.sign a != F32.sign b) then nan else a
  else if F32.isInf b then b
  else if sum = 0 then F32.ofSignBits (F32.sign a && F32.sign b) 0
  else F32.ofSignBits (decide (sum < 0)) (roundBits 0 sum.natAbs)

/-- The binary32 difference: the sum with the sign of `b` inverted (R63). -/
def fsub (nan a b : F32) : F32 := fadd nan a (F32.negate b)

/-- The place of a value that is no NaN among all such values: the lower 31 bits order the
magnitudes, infinity included, and both zeros are 0 (R64). -/
def F32.order (v : F32) : Int :=
  let m : Int := (v.extractLsb' 0 31).toNat
  if F32.sign v then -m else m

/-- The quiet comparison `a > b`: false on a NaN, the zeros equal, strict (R64). -/
def fgt (a b : F32) : Bool :=
  !F32.isNaN a && !F32.isNaN b && decide (F32.order b < F32.order a)

end Sys2Proof.Machine
end

