-- ==== Sys2Proof/Machine/Operands.lean ====
section
/-! DEFINITION. The operand forms (spec/20_memory.md R31, spec/30_encoding.md R52, R53): a pixel
packed into 128 bits and serialised to bytes, and the numbers and lines of the assembler. The
fields of a command word are read once, by the decoder. -/

namespace Sys2Proof

/-- R is bits [31:0], G [63:32], B [95:64], A [127:96] (R31). -/
def Pixel.pack (p : Pixel) : PixelBits := p.a ++ p.b ++ p.g ++ p.r

/-- The pixel a packed value holds (R31). -/
def Pixel.unpack (v : PixelBits) : Pixel :=
  ⟨v.extractLsb' 0 32, v.extractLsb' 32 32, v.extractLsb' 64 32, v.extractLsb' 96 32⟩

/-- Byte `k` of the serialised pixel: byte 0 is R[7:0], byte 15 is A[31:24] (R31). -/
def Pixel.byte (p : Pixel) (k : Nat) : Byte := p.pack.extractLsb' (8 * k) 8

/-- The channel whose four bytes, lowest first, are `f k` to `f (k + 3)` (R31). -/
def channelOfBytes (f : Nat → Byte) (k : Nat) : F32 := f (k + 3) ++ f (k + 2) ++ f (k + 1) ++ f k

/-- The pixel whose sixteen bytes are `f 0` to `f 15` (R31). -/
def Pixel.ofBytes (f : Nat → Byte) : Pixel :=
  ⟨channelOfBytes f 0, channelOfBytes f 4, channelOfBytes f 8, channelOfBytes f 12⟩

end Sys2Proof
end

