-- ==== Sys2Proof/Syntax.lean ====
section
/-! DEFINITION. The commands of the block (spec/30_encoding.md R44, spec/opcode_table.json): one
constructor per row of the opcode table. Coordinates are the mathematical integers of R46 (the
32-bit fields are read once, by the decoder); colours are taken bit for bit (R47). -/

namespace Sys2Proof

/-- The eleven commands of R44. An operand a command ignores is no field of it. -/
inductive Instr where
  /-- `WPX.NONE.C x, y, c` (R73) -/
  | wpxNoneC (x y : Int) (c : Pixel)
  /-- `WPX.ADD.C x, y, c` (R75) -/
  | wpxAddC (x y : Int) (c : Pixel)
  /-- `WPX.ALPHA.C x, y, c` (R77) -/
  | wpxAlphaC (x y : Int) (c : Pixel)
  /-- `WPX.CLIP.C x, y, c` (R79) -/
  | wpxClipC (x y : Int) (c : Pixel)
  /-- `WPX.NONE.U x, y, c` (R74) -/
  | wpxNoneU (x y : Int) (c : Pixel)
  /-- `WPX.ADD.U x, y, c` (R76) -/
  | wpxAddU (x y : Int) (c : Pixel)
  /-- `WPX.ALPHA.U x, y, c` (R78) -/
  | wpxAlphaU (x y : Int) (c : Pixel)
  /-- `WPX.CLIP.U x, y, c` (R80) -/
  | wpxClipU (x y : Int) (c : Pixel)
  /-- `GET x, y, border` (R90) -/
  | get (x y : Int) (border : Pixel)
  /-- `FILL v` (R91), also spelt `CLEAR v` (R92) -/
  | fill (v : Pixel)
  /-- `SETOPA v` (R93) -/
  | setopa (v : F32)
  deriving DecidableEq, Repr

end Sys2Proof
end

