-- ==== Sys2Proof/WellFormed.lean ====
section
/-! DEFINITION. Which command terms a command word can express: coordinates are 32-bit two's
complement (spec/30_encoding.md R46, D5); every colour pattern is legal (R10, R18, R47). -/

namespace Sys2Proof

/-- `v` is expressible in a coordinate field: `-2^31 .. 2^31 - 1` (R46). -/
def coordInRange (v : Int) : Bool := decide (-2 ^ 31 ≤ v ∧ v < 2 ^ 31)

/-- Both coordinates are expressible. -/
def coordsInRange (x y : Int) : Bool := coordInRange x && coordInRange y

/-- The command can be written as a command word (R42, R46). -/
def Instr.wf : Instr → Bool
  | .wpxNoneC x y _ => coordsInRange x y
  | .wpxAddC x y _ => coordsInRange x y
  | .wpxAlphaC x y _ => coordsInRange x y
  | .wpxClipC x y _ => coordsInRange x y
  | .wpxNoneU x y _ => coordsInRange x y
  | .wpxAddU x y _ => coordsInRange x y
  | .wpxAlphaU x y _ => coordsInRange x y
  | .wpxClipU x y _ => coordsInRange x y
  | .get x y _ => coordsInRange x y
  | .fill _ => true
  | .setopa _ => true

end Sys2Proof
end

