-- ==== Sys2Proof/Decode.lean ====
section
/-! DEFINITION. The command word's fields, the decoder and the encoder (spec/30_encoding.md R42 to
R53). The decoder is total: every 256-bit word is one of the eleven commands or reserved, by
name (R48). -/

namespace Sys2Proof

/-- Why a command word is reserved (R48). -/
inductive Reserved where
  /-- `op` is `0xB` to `0xF` -/
  | opcode (op : BitVec 4)
  /-- `z0`, bits [31:4], is not zero -/
  | z0 (bits : BitVec 28)
  /-- `z1`, bits [127:96], is not zero -/
  | z1 (bits : BitVec 32)
  deriving DecidableEq, Repr

/-! ## The fields of R42 -/

def CmdWord.op (w : CmdWord) : BitVec 4 := w.extractLsb' 0 4
def CmdWord.z0 (w : CmdWord) : BitVec 28 := w.extractLsb' 4 28
def CmdWord.z1 (w : CmdWord) : BitVec 32 := w.extractLsb' 96 32

/-- `x = sext_32(cmd[63:32])` (R46). -/
def CmdWord.x (w : CmdWord) : Int := (w.extractLsb' 32 32).toInt

/-- `y = sext_32(cmd[95:64])` (R46). -/
def CmdWord.y (w : CmdWord) : Int := (w.extractLsb' 64 32).toInt

/-- `c = (cR, cG, cB, cA)`, bit for bit (R47). -/
def CmdWord.colour (w : CmdWord) : Pixel :=
  ⟨w.extractLsb' 128 32, w.extractLsb' 160 32, w.extractLsb' 192 32, w.extractLsb' 224 32⟩

/-! ## Enumerator values (R49) and the selector of the dispatcher (R50) -/

/-- `None = 0`, `Add = 1`, `Alpha = 2`, `Clip = 3` (R49). -/
def BlendMode.code : BlendMode → BitVec 2
  | .none => 0
  | .add => 1
  | .alpha => 2
  | .clip => 3

/-- `Checked = 0`, `Unchecked = 1` (R49). -/
def BoundsMode.code : BoundsMode → BitVec 1
  | .checked => 0
  | .unchecked => 1

/-- `op = {0, boundsMode, blendMode}` (R44, R50). -/
def selector (mode : BlendMode) (bounds : BoundsMode) : BitVec 4 :=
  0#1 ++ bounds.code ++ mode.code

/-- The primitive the source's `writePixel(x, y, color, blendMode, boundsMode)` routes to
(R50, R81): the pseudo-command `WPX mode, bounds, x, y, c` of R53. -/
def Instr.wpx (mode : BlendMode) (bounds : BoundsMode) (x y : Int) (c : Pixel) : Instr :=
  match bounds, mode with
  | .checked, .none => .wpxNoneC x y c
  | .checked, .add => .wpxAddC x y c
  | .checked, .alpha => .wpxAlphaC x y c
  | .checked, .clip => .wpxClipC x y c
  | .unchecked, .none => .wpxNoneU x y c
  | .unchecked, .add => .wpxAddU x y c
  | .unchecked, .alpha => .wpxAlphaU x y c
  | .unchecked, .clip => .wpxClipU x y c

/-- `SET x, y, v` is `WPX.NONE.C x, y, v` (R53, R94). -/
def Instr.set (x y : Int) (v : Pixel) : Instr := .wpxNoneC x y v

/-- `CLEAR v` is `FILL v` (R53, R92). -/
def Instr.clear (v : Pixel) : Instr := .fill v

/-! ## Decoding -/

/-- The opcode map of R44; an opcode it does not name is reserved (R48). -/
def decodeOp (op : BitVec 4) (x y : Int) (c : Pixel) : Except Reserved Instr :=
  match op.toNat with
  | 0 => .ok (.wpxNoneC x y c)
  | 1 => .ok (.wpxAddC x y c)
  | 2 => .ok (.wpxAlphaC x y c)
  | 3 => .ok (.wpxClipC x y c)
  | 4 => .ok (.wpxNoneU x y c)
  | 5 => .ok (.wpxAddU x y c)
  | 6 => .ok (.wpxAlphaU x y c)
  | 7 => .ok (.wpxClipU x y c)
  | 8 => .ok (.get x y c)
  | 9 => .ok (.fill c)
  | 10 => .ok (.setopa c.a)
  | _ => .error (.opcode op)

/-- Every 256-bit word is one of the eleven commands or reserved (R48). Which of several reasons a
word is given is the model's (log 12). -/
def decode (w : CmdWord) : Except Reserved Instr :=
  if w.z0 ≠ 0 then .error (.z0 w.z0)
  else if w.z1 ≠ 0 then .error (.z1 w.z1)
  else decodeOp w.op w.x w.y w.colour

/-- The command word of an `nbits`-bit row pattern `w` of spec/opcode_table.json: one 256-bit
word, bits above `nbits` zero. -/
def tableWord (nbits w : Nat) : CmdWord := (BitVec.ofNat nbits w).setWidth 256

/-- What the decoder reads from a row pattern of spec/opcode_table.json. -/
def decodeTableWord (nbits w : Nat) : Option Instr :=
  match decode (tableWord nbits w) with
  | .ok i => some i
  | .error _ => none

/-! ## Encoding -/

/-- A coordinate as its two's complement field (R46).
DESIGN CHOICE: R46 and R52 give a coordinate outside `-2^31 .. 2^31 - 1` no field; here it is the
field of its residue modulo 2^32. `Instr.wf` is false of every such command; log 18. -/
def coordField (v : Int) : BitVec 32 := BitVec.ofInt 32 v

/-- The layout of R42, most significant field first; `z0` and `z1` zero. -/
def assembleWord (op : BitVec 4) (x y : BitVec 32) (c : Pixel) : CmdWord :=
  c.a ++ c.b ++ c.g ++ c.r ++ 0#32 ++ y ++ x ++ 0#28 ++ op

/-- A command that uses `x`, `y` and the colour (R44). -/
def assembleXY (op : BitVec 4) (x y : Int) (c : Pixel) : CmdWord :=
  assembleWord op (coordField x) (coordField y) c

/-- The command word of a command; fields it ignores are zero (R44, R52). -/
def encode : Instr → CmdWord
  | .wpxNoneC x y c => assembleXY 0x0#4 x y c
  | .wpxAddC x y c => assembleXY 0x1#4 x y c
  | .wpxAlphaC x y c => assembleXY 0x2#4 x y c
  | .wpxClipC x y c => assembleXY 0x3#4 x y c
  | .wpxNoneU x y c => assembleXY 0x4#4 x y c
  | .wpxAddU x y c => assembleXY 0x5#4 x y c
  | .wpxAlphaU x y c => assembleXY 0x6#4 x y c
  | .wpxClipU x y c => assembleXY 0x7#4 x y c
  | .get x y c => assembleXY 0x8#4 x y c
  | .fill v => assembleWord 0x9#4 0 0 v
  | .setopa v => assembleWord 0xA#4 0 0 ⟨0, 0, 0, v⟩

end Sys2Proof
end

