-- ==== Sys2Proof/Machine/State.lean ====
section
/-! DEFINITION. The state of the block (spec/10_state.md R8 to R23), the host's side of a step
(R13, R21), the reasons a step can stop, and the state after reset (R23). -/

namespace Sys2Proof.Machine

/-- What the host drives at one clock edge at which the block can take a command (R41, R43). -/
inductive Input where
  /-- `cmd_valid = 1` with this word on `cmd`; `position` is the command's place in the stream, a
  fact about the host that comes with the command and is kept nowhere (R13, R21, R112; log 5) -/
  | command (position : Nat) (w : CmdWord)
  /-- `rst = 1` (R126) -/
  | reset
  /-- neither: nothing is issued -/
  | idle
  deriving DecidableEq, Repr

/-- Every State is a command boundary: no command is in flight in it (R33; log 10). The block's
own state is R8's table and the response port; `inputs` is the host's side, which the closed form
of `step` makes the model carry (log 4); `draws` is the model's own (log 6). -/
structure State where
  /-- register 0, `WIDTH` (R15) -/
  width : Nat
  /-- register 1, `HEIGHT` (R16) -/
  height : Nat
  /-- register 2, `LENGTH`, always `WIDTH * HEIGHT` (R17; log 9) -/
  length : Nat
  /-- register 3, `OPACITY` (R18) -/
  opacity : F32
  /-- the pixel store `data` (R9), byte `k` of pixel `idx` under address `16*idx + k` in the byte
  order of R31 (log 1) -/
  store : List Host.Cell
  /-- the response the last step put on the response port; `none` while `rsp_valid = 0`
  (R45; log 7) -/
  rsp : Option Pixel
  /-- HOST: what the host drives at this and the coming clock edges, oldest first (R13, R21, R36;
  log 4) -/
  inputs : List Input
  /-- MODEL: numbers the draws of NaN values (R65, U3; log 6) -/
  draws : Nat
  deriving DecidableEq, Repr

/-- The faults of the model; the hardware raises none (R110). -/
inductive Fault where
  /-- Raised by `WPX.NONE.U`, `WPX.ADD.U`, `WPX.ALPHA.U` and `WPX.CLIP.U` when `valid(x, y)` does
  not hold, where the hardware's behaviour is undefined (R82, R112, U1). `position` is the place
  the host's stream gives the command (`none` outside a step; log 5). Safe: the model stops where
  the hardware does anything. -/
  | uncheckedOutOfRange (position : Option Nat) (x y : Int)
  deriving DecidableEq, Repr

/-- The refusals of the model. -/
inductive Refusal where
  /-- Raised by an arm of `exec` whose command has no meaning yet. Safe: the model stops. -/
  | notModelled (mnemonic : String)
  /-- Raised by `step` on a reserved command word, whose behaviour nothing defines (R48, R112, U4).
  `position` is the place the host's stream gives the word (`none` outside a step; log 5). Safe:
  the model stops where the hardware does anything. -/
  | reservedWord (position : Option Nat) (word : CmdWord) (why : Reserved)
  deriving DecidableEq, Repr

/-- The state after reset (R23, R126) of the instance `WIDTH = 4`, `HEIGHT = 3` (log 3), with no
input offered yet (log 4). `State.resetWith` is the same for any instance. -/
def State.reset : State where
  width := Config.resetWidth
  height := Config.resetHeight
  length := Config.resetWidth * Config.resetHeight
  opacity := Config.opacityReset
  store := []
  rsp := none
  inputs := []
  draws := 0

end Sys2Proof.Machine
end

