-- ==== Sys2Proof/Machine/Ops.lean ====
section
/-! DEFINITION. The named operations over the store and the registers (spec/10_state.md,
spec/20_memory.md R28, R29), reset as an operation (spec/70_reset_and_hazards.md R126), and what
the block does when it takes the host's next input (spec/30_encoding.md R43). The block has no
exception to take and none to return from (R110, R115, R116). -/

namespace Sys2Proof.Machine

/-! ## Bytes of the store. Pixel `idx` has the addresses `16*idx` to `16*idx + 15` (log 1). -/

/-- What a byte that no command has written reads as: `INIT_PIXEL`'s (R23, R28; log 2). -/
def Memory.unlisted (a : Nat) : Byte := Config.initPixel.byte (a % 16)

/-- The byte at `a`. -/
def Memory.read : List Host.Cell → Nat → Byte
  | [], a => Memory.unlisted a
  | (k, v) :: m, a => if k = a then v else Memory.read m a

/-- `m` with the byte at `a` replaced, in canonical form: sorted, and a byte equal to what an
unlisted address reads as is not listed. -/
def Memory.write : List Host.Cell → Nat → Byte → List Host.Cell
  | [], a, b => if b = Memory.unlisted a then [] else [(a, b)]
  | (k, v) :: m, a, b =>
    if k < a then (k, v) :: Memory.write m a b
    else
      let rest := if k = a then m else (k, v) :: m
      if b = Memory.unlisted a then rest else (a, b) :: rest

/-- The canonical form: addresses strictly rising, no entry equal to what an unlisted address
reads as. -/
abbrev Memory.wf (m : List Host.Cell) : Prop :=
  m.Pairwise (fun c d => c.1 < d.1) ∧ ∀ c ∈ m, c.2 ≠ Memory.unlisted c.1

/-- The bytes `f 0` to `f (n-1)` written at `base` and up. -/
def Memory.writeRun (base : Nat) (f : Nat → Byte) : Nat → List Host.Cell → List Host.Cell
  | 0, m => m
  | n + 1, m => Memory.writeRun base f n (Memory.write m (base + n) (f n))

/-- `MemRead(idx, 1)` on the bytes: all four channels bit for bit (R28). -/
def Memory.readPixel (m : List Host.Cell) (idx : Nat) : Pixel :=
  Pixel.ofBytes fun k => Memory.read m (16 * idx + k)

/-- `MemWrite(idx, 1, p)` on the bytes: all 128 bits, no other index (R29). -/
def Memory.writePixel (m : List Host.Cell) (idx : Nat) (p : Pixel) : List Host.Cell :=
  Memory.writeRun (16 * idx) p.byte 16 m

/-- `MemWrite(idx, 1, p)` for every `idx < n` (R91). -/
def Memory.fill (p : Pixel) : Nat → List Host.Cell → List Host.Cell
  | 0, m => m
  | n + 1, m => Memory.fill p n (Memory.writePixel m n p)

/-! ## The store and the registers of a State -/

/-- `MemRead(idx, 1)` (R28). Commands call it for `idx < LENGTH` only. -/
def State.memRead (s : State) (idx : Nat) : Pixel := Memory.readPixel s.store idx

/-- `MemWrite(idx, 1, p)` (R29). Commands call it for `idx < LENGTH` only. -/
def State.memWrite (s : State) (idx : Nat) (p : Pixel) : State :=
  { s with store := Memory.writePixel s.store idx p }

/-- `MemWrite` of `p` at every index of the store, as one step (R33, R91). -/
def State.fillStore (s : State) (p : Pixel) : State :=
  { s with store := Memory.fill p s.length s.store }

/-- `csr[OPACITY] <- v` (R93). -/
def State.setOpacity (s : State) (v : F32) : State := { s with opacity := v }

/-- `respond(p)` (R45). -/
def State.respond (s : State) (p : Pixel) : State := { s with rsp := some p }

/-- The draw of NaN values has been used up: the next one is another (R65, U3; log 6). -/
def State.nextDraw (s : State) : State := { s with draws := s.draws + 1 }

/-! ## Reset and the host's inputs -/

/-- `rst` sampled high: the state of R23; the dimensions are unchanged (R126). The host's side and
the model's counter are no state of the block and stay. -/
def State.applyReset (s : State) : State :=
  { s with opacity := Config.opacityReset, store := [], rsp := none }

/-- The state after reset of an instance of `w x h` pixels whose initial pixel is `p`, with the
host about to drive `inputs` (R7, R23, D7, D18). -/
def State.resetWith (w h : Nat) (p : Pixel) (inputs : List Input) : State where
  width := w
  height := h
  length := w * h
  opacity := Config.opacityReset
  store := Memory.fill p (w * h) []
  rsp := none
  inputs := inputs
  draws := 0

/-- What the host drives now; nothing once its stream has ended (R43). -/
def State.offered (s : State) : Input :=
  match s.inputs with
  | [] => .idle
  | i :: _ => i

/-- The place of the command the host is issuing in its stream, as the host gives it; `none` where
it issues none (R13, R112; log 5). -/
def State.position (s : State) : Option Nat :=
  match s.offered with
  | .command position _ => some position
  | .reset => none
  | .idle => none

/-- The response of the step before is over (R45; log 7). -/
def State.endResponse (s : State) : State := { s with rsp := none }

/-- The clock edge is over: the host's stream has moved on (R43; log 4). -/
def State.advance (s : State) : State := { s with inputs := s.inputs.tail }

/-- What is done to the next state where there is one; a stop stays as it is. -/
def onNext (f : State → State) (o : Host.Outcome State Fault Refusal) :
    Host.Outcome State Fault Refusal :=
  match o with
  | .next s => .next (f s)
  | .fault why => .fault why
  | .refused why => .refused why

/-- The host's stream with this word first, at this place (R43; logs 4, 5). -/
def State.offerWord (s : State) (position : Nat) (w : CmdWord) : State :=
  { s with inputs := .command position w :: s.inputs }

end Sys2Proof.Machine
end

