-- ==== Sys2Proof/Machine/Ports.lean ====
section
/-! DEFINITION. What the host reads at a command boundary, without side effect
(spec/10_state.md R19, spec/30_encoding.md R41, R45, R54, R55). `sample` numbers the samplings of a
port, so that two samples of a value the spec leaves open need not agree (log 13). -/

namespace Sys2Proof.Machine

/-- `cmd_ready`: every State is a command boundary, at which the block can take a command
(R43; log 10). -/
def cmdReady (_s : State) : Bool := true

/-- The status port: `csr_val` for `csr_sel` (R54). -/
def csrVal (s : State) (sel : BitVec 2) : BitVec 32 :=
  match sel.toNat with
  | 0 => BitVec.ofNat 32 s.width
  | 1 => BitVec.ofNat 32 s.height
  | 2 => BitVec.ofNat 32 s.length
  | _ => s.opacity

/-- The scan-out port: `so_val` for `so_idx`; any value beyond the store (R55, U6). -/
def soVal (sample : Nat) (s : State) (idx : BitVec 31) : PixelBits :=
  if idx.toNat < s.length then (s.memRead idx.toNat).pack else Config.freeScanOut sample idx

/-- `rsp_valid` (R45). -/
def rspValid (s : State) : Bool := s.rsp.isSome

/-- `rsp`: the response, packed; any value while `rsp_valid = 0` (R45, U8). -/
def rspBus (sample : Nat) (s : State) : PixelBits :=
  match s.rsp with
  | some p => p.pack
  | none => Config.freeRsp sample

end Sys2Proof.Machine
end

