-- ==== Sys2Proof/Machine/Flags.lean ====
section
/-! DEFINITION. The block has no status flags, condition codes or predicates (spec/10_state.md
R14). This file holds the only two conditions a command's effect depends on (R85): the bounds
predicate (spec/20_memory.md R25, R26) and the alpha test of Clip (spec/40_pixel_write.md R72). -/

namespace Sys2Proof.Machine

/-- `index(x, y) = x + y * WIDTH`, in the mathematical integers (R25, R83). -/
def State.index (s : State) (x y : Int) : Int := x + y * s.width

/-- `valid(x, y)`: `0 <= x < WIDTH` and `0 <= index(x, y) < LENGTH` (R26). -/
def State.valid (s : State) (x y : Int) : Bool :=
  decide (0 ≤ x ∧ x < s.width ∧ 0 ≤ s.index x y ∧ s.index x y < s.length)

/-- The place in the store of coordinates that are valid. -/
def State.place (s : State) (x y : Int) : Nat := (s.index x y).toNat

/-- The alpha test: `s.A > CLIP_T`, strict, in binary32; `OPACITY` is not read (R72). -/
def clipPasses (s : Pixel) : Bool := fgt s.a Config.clipT

end Sys2Proof.Machine
end

