-- ==== Sys2Proof/Machine/BufferOps.lean ====
section
/-! DEFINITION. The pixel-store commands (spec/41_buffer_ops.md R90 to R93). -/

namespace Sys2Proof.Machine

/-- What `GET x, y, border` responds: the stored pixel where `valid(x, y)`, else the border value
(R90, C4). -/
def State.fetched (s : State) (x y : Int) (border : Pixel) : Pixel :=
  if s.valid x y then s.memRead (s.place x y) else border

/-- `GET x, y, border` (R90): responds, and writes no state. -/
def execGet (x y : Int) (border : Pixel) (s : State) : Host.Outcome State Fault Refusal :=
  .next (s.respond (s.fetched x y border))

/-- `FILL v` (R91): every pixel of the store becomes `v`. -/
def execFill (v : Pixel) (s : State) : Host.Outcome State Fault Refusal :=
  .next (s.fillStore v)

/-- `SETOPA v` (R93): the opacity modifier becomes `v`, unchecked. -/
def execSetopa (v : F32) (s : State) : Host.Outcome State Fault Refusal :=
  .next (s.setOpacity v)

end Sys2Proof.Machine
end

