-- ==== Sys2Proof/Machine/PixelWrite.lean ====
section
/-! DEFINITION. The eight pixel-write primitives (spec/40_pixel_write.md R68 to R82): the four
blend functions, the common shape, and one meaning per primitive. In the blend functions `s` is
the source pixel (the command's colour) and `d` the destination pixel (section 6.3). -/

namespace Sys2Proof.Machine

/-! ## The four blend functions. `nan` gives each lane the NaN it stores for a NaN result. -/

/-- `d := s`, alpha included (R69). -/
def blendNone (s _d : Pixel) : Pixel := s

/-- `d.rgb := s.rgb * a + d.rgb` with `a = s.A`; `d.a := 1` (R70). -/
def blendAdd (nan s d : Pixel) : Pixel :=
  { r := fadd nan.r (fmul nan.r s.r s.a) d.r
    g := fadd nan.g (fmul nan.g s.g s.a) d.g
    b := fadd nan.b (fmul nan.b s.b s.a) d.b
    a := Config.one }

/-- One colour lane of `blend_alpha`: `s.c * a + d.c * na`, each step rounded (R71). -/
def alphaLane (nan sc dc a na : F32) : F32 := fadd nan (fmul nan sc a) (fmul nan dc na)

/-- `a = s.A * OPACITY`, `na = 1 - a`; `s.rgb * a + d.rgb * na`; `a + d.a * na` (R71). -/
def blendAlpha (nan s d : Pixel) (opacity : F32) : Pixel :=
  let a := fmul nan.a s.a opacity
  let na := fsub nan.a Config.one a
  { r := alphaLane nan.r s.r d.r a na
    g := alphaLane nan.g s.g d.g a na
    b := alphaLane nan.b s.b d.b a na
    a := fadd nan.a a (fmul nan.a d.a na) }

/-- `s` where the alpha test passes, else `KEEP` (`none`) (R72). -/
def blendClip (s _d : Pixel) : Option Pixel := if clipPasses s then some s else none

/-- The blend function of a mode; `none` is `KEEP` (section 1.2). -/
def State.blend (st : State) (mode : BlendMode) (s d : Pixel) : Option Pixel :=
  match mode with
  | .none => some (blendNone s d)
  | .add => some (blendAdd (freeNaNs st.draws) s d)
  | .alpha => some (blendAlpha (freeNaNs st.draws) s d st.opacity)
  | .clip => blendClip s d

/-- The modes that compute channels take a draw of NaN values (R65; log 6). -/
def State.afterBlend (st : State) (mode : BlendMode) : State :=
  match mode with
  | .none => st
  | .add => st.nextDraw
  | .alpha => st.nextDraw
  | .clip => st

/-! ## The common shape (R68) -/

/-- The blend at the store's pixel `idx`: read, blend, write unless `KEEP` (R68). -/
def State.blendAt (st : State) (mode : BlendMode) (idx : Nat) (c : Pixel) : State :=
  match st.blend mode c (st.memRead idx) with
  | some p => (st.memWrite idx p).afterBlend mode
  | none => st

/-- Every pixel-write command: the bounds test first; out of range, a checked command does nothing
and an unchecked one is undefined (R68, R82, R114). -/
def State.pixelWrite (st : State) (mode : BlendMode) (bounds : BoundsMode) (x y : Int)
    (c : Pixel) : Host.Outcome State Fault Refusal :=
  if st.valid x y then .next (st.blendAt mode (st.place x y) c)
  else
    match bounds with
    | .checked => .next st
    | .unchecked => .fault (.uncheckedOutOfRange st.position x y)

/-! ## The eight primitives -/

/-- `WPX.NONE.C x, y, c` (R73). -/
def execWpxNoneC (x y : Int) (c : Pixel) (s : State) : Host.Outcome State Fault Refusal :=
  s.pixelWrite .none .checked x y c

/-- `WPX.ADD.C x, y, c` (R75). -/
def execWpxAddC (x y : Int) (c : Pixel) (s : State) : Host.Outcome State Fault Refusal :=
  s.pixelWrite .add .checked x y c

/-- `WPX.ALPHA.C x, y, c` (R77). -/
def execWpxAlphaC (x y : Int) (c : Pixel) (s : State) : Host.Outcome State Fault Refusal :=
  s.pixelWrite .alpha .checked x y c

/-- `WPX.CLIP.C x, y, c` (R79). -/
def execWpxClipC (x y : Int) (c : Pixel) (s : State) : Host.Outcome State Fault Refusal :=
  s.pixelWrite .clip .checked x y c

/-- `WPX.NONE.U x, y, c` (R74). -/
def execWpxNoneU (x y : Int) (c : Pixel) (s : State) : Host.Outcome State Fault Refusal :=
  s.pixelWrite .none .unchecked x y c

/-- `WPX.ADD.U x, y, c` (R76). -/
def execWpxAddU (x y : Int) (c : Pixel) (s : State) : Host.Outcome State Fault Refusal :=
  s.pixelWrite .add .unchecked x y c

/-- `WPX.ALPHA.U x, y, c` (R78). -/
def execWpxAlphaU (x y : Int) (c : Pixel) (s : State) : Host.Outcome State Fault Refusal :=
  s.pixelWrite .alpha .unchecked x y c

/-- `WPX.CLIP.U x, y, c` (R80). -/
def execWpxClipU (x y : Int) (c : Pixel) (s : State) : Host.Outcome State Fault Refusal :=
  s.pixelWrite .clip .unchecked x y c

end Sys2Proof.Machine
end

