-- ==== Sys2Proof/Machine/Dispatch.lean ====
section
/-! DEFINITION. The command decoder's choice among the meanings (spec/30_encoding.md R44, R50):
one arm per constructor of Instr, each one direct call of that command's meaning. -/

namespace Sys2Proof.Machine

def exec (i : Instr) (s : State) : Host.Outcome State Fault Refusal :=
  match i with
  | .wpxNoneC x y c => Sys2Proof.Machine.execWpxNoneC x y c s
  | .wpxAddC x y c => Sys2Proof.Machine.execWpxAddC x y c s
  | .wpxAlphaC x y c => Sys2Proof.Machine.execWpxAlphaC x y c s
  | .wpxClipC x y c => Sys2Proof.Machine.execWpxClipC x y c s
  | .wpxNoneU x y c => Sys2Proof.Machine.execWpxNoneU x y c s
  | .wpxAddU x y c => Sys2Proof.Machine.execWpxAddU x y c s
  | .wpxAlphaU x y c => Sys2Proof.Machine.execWpxAlphaU x y c s
  | .wpxClipU x y c => Sys2Proof.Machine.execWpxClipU x y c s
  | .get x y border => Sys2Proof.Machine.execGet x y border s
  | .fill v => Sys2Proof.Machine.execFill v s
  | .setopa v => Sys2Proof.Machine.execSetopa v s

end Sys2Proof.Machine
end

