-- ==== Sys2Proof/Machine/Run.lean ====
section
/-! DEFINITION. What the block does with what the host offers at a clock edge
(spec/30_encoding.md R41, R43, R48). -/

namespace Sys2Proof.Machine

/-- A command word: decoded first, a reserved one refused before anything else (R48, R114). -/
def runWord (w : CmdWord) (s : State) : Host.Outcome State Fault Refusal :=
  match decode w with
  | .ok i => exec i s
  | .error why => .refused (.reservedWord s.position w why)

/-- What the block does at a clock edge with what the host offers: nothing, reset, or the whole
command (R41, R43, R126). -/
def runOffered (s : State) : Host.Outcome State Fault Refusal :=
  match s.offered with
  | .idle => .next s
  | .reset => .next s.applyReset
  | .command _ w => runWord w s

end Sys2Proof.Machine
end

