-- ==== Sys2Proof/Machine/Step.lean ====
section
/-! DEFINITION. One step (spec/30_encoding.md R43, spec/20_memory.md R33, R36): one clock edge at
which the block is idle, with the whole command if one is issued there. Nothing is fetched from
the store (R39); the word comes from the host. -/

namespace Sys2Proof.Machine

/-- One step: the last response goes, the block does what is offered, the host's stream moves on
(R43, R45). -/
def step (s : State) : Host.Outcome State Fault Refusal :=
  onNext State.advance (runOffered s.endResponse)

/-- `s` with the row pattern `w` of spec/opcode_table.json as the command the host offers next, as
the first of its stream (logs 4, 5). -/
def State.withFetchWord (s : State) (nbits w : Nat) : State := s.offerWord 1 (tableWord nbits w)

end Sys2Proof.Machine
end

