-- ==== Sys2Proof/Machine/Asm.lean ====
section
/-! DEFINITION. The assembler line as syntax (spec/30_encoding.md R52, R53): its numbers, its
pseudo-commands and the word it is assembled to. The text of a line is not parsed (log 15). -/

namespace Sys2Proof.Machine

/-- A number of an assembler line: `(-1)^neg * digits * 10^-places`, or a bit pattern (R52). -/
inductive AsmNumber where
  | decimal (neg : Bool) (digits places : Nat)
  | pattern (v : F32)
  deriving DecidableEq, Repr

/-- The nearest binary32 value, ties to even, or the pattern (R52). The quotient is cut 2^-65
below the smallest subnormal with a last bit that says whether anything was cut off.
DESIGN CHOICE, where R52 does not say which value is the nearest: a decimal of magnitude at least
2^128 - 2^103 is the infinity of its sign, and a negative decimal that is zero or rounds to zero is
`-0.0`; log 19. -/
def AsmNumber.value : AsmNumber → F32
  | .decimal neg digits places =>
    let scaled := digits * 2 ^ 213
    let rest := if scaled % 10 ^ places = 0 then 0 else 1
    F32.ofSignBits neg (roundBits 65 (2 * (scaled / 10 ^ places) + rest))
  | .pattern v => v

/-- The pixel operand `(r, g, b, a)` of a line (R52). -/
structure AsmPixel where
  r : AsmNumber
  g : AsmNumber
  b : AsmNumber
  a : AsmNumber
  deriving DecidableEq, Repr

def AsmPixel.value (p : AsmPixel) : Pixel := ⟨p.r.value, p.g.value, p.b.value, p.a.value⟩

/-- A line of the assembler (R52) or a pseudo-command (R53). A `WPX.<MODE>.<B>` line and the
pseudo-command `WPX mode, bounds` have the same parts. -/
inductive AsmLine where
  | wpx (mode : BlendMode) (bounds : BoundsMode) (x y : Int) (c : AsmPixel)
  | get (x y : Int) (border : AsmPixel)
  | fill (v : AsmPixel)
  | setopa (v : AsmNumber)
  | clear (v : AsmPixel)
  | set (x y : Int) (v : AsmPixel)
  deriving DecidableEq, Repr

/-- The command a line stands for (R52, R53). -/
def AsmLine.command : AsmLine → Instr
  | .wpx mode bounds x y c => Instr.wpx mode bounds x y c.value
  | .get x y border => .get x y border.value
  | .fill v => .fill v.value
  | .setopa v => .setopa v.value
  | .clear v => Instr.clear v.value
  | .set x y v => Instr.set x y v.value

/-- The command of the line can be written as a word: its coordinates fit their fields (R46). -/
def AsmLine.wf (l : AsmLine) : Bool := l.command.wf

/-- The word a line is assembled to (R52).
DESIGN CHOICE: R52 gives a line whose coordinates do not fit (`AsmLine.wf` false) no word; here
they wrap modulo 2^32 (`coordField`); log 18. -/
def AsmLine.word (l : AsmLine) : CmdWord := encode l.command

end Sys2Proof.Machine
end

