-- ==== Sys2Proof/Safety.lean ====
section
/-! DEFINITION. What claims are stated in: the invariant of the block's state and what counts as a
safe command (spec/10_state.md R9, R11, R17; spec/70_reset_and_hazards.md R128, R130). -/

namespace Sys2Proof.Machine

/-- The dimensions of an instance that can exist (R7, R128, D7). -/
def dimsOk (w h : Nat) : Prop := w < 2 ^ 31 ∧ h < 2 ^ 31 ∧ w * h < 2 ^ 31

/-- The store's canonical form, with no byte listed beyond its last pixel (R9, R24). -/
def storeOk (m : List Host.Cell) (length : Nat) : Prop :=
  Memory.wf m ∧ ∀ c ∈ m, c.1 < 16 * length

/-- The invariant of the block's state: legal dimensions, `LENGTH = WIDTH * HEIGHT`
(R9 "at all times", R17), and a store of `LENGTH` pixels in canonical form. -/
structure State.Inv (s : State) : Prop where
  dims : dimsOk s.width s.height
  length_eq : s.length = s.width * s.height
  store : storeOk s.store s.length

/-- What the host must have established before it issues the command (R102, R130): an unchecked
primitive's coordinates are valid. Every other command is defined on every operand. -/
def State.safeCommand (s : State) : Instr → Bool
  | .wpxNoneC _ _ _ => true
  | .wpxAddC _ _ _ => true
  | .wpxAlphaC _ _ _ => true
  | .wpxClipC _ _ _ => true
  | .wpxNoneU x y _ => s.valid x y
  | .wpxAddU x y _ => s.valid x y
  | .wpxAlphaU x y _ => s.valid x y
  | .wpxClipU x y _ => s.valid x y
  | .get _ _ _ => true
  | .fill _ => true
  | .setopa _ => true

/-- `t` is `s` with the pixel at index `idx` replaced by `p`: no register, no response, nothing of
the host's side and no byte outside the sixteen of that pixel differs (R29, R84 (a)). The draw
counter, the model's own, is left open here (log 6). -/
def State.Replaced (s t : State) (idx : Nat) (p : Pixel) : Prop :=
  t = { s with store := t.store, draws := t.draws } ∧ t.memRead idx = p ∧
    ∀ a, a < 16 * idx ∨ 16 * idx + 16 ≤ a → Memory.read t.store a = Memory.read s.store a

/-- A pixel of four NaNs: what the channels a rule computes to NaN may be given (R65, R67). -/
def Pixel.AllNaN (p : Pixel) : Prop :=
  F32.isNaN p.r = true ∧ F32.isNaN p.g = true ∧ F32.isNaN p.b = true ∧ F32.isNaN p.a = true

/-- The least magnitude, in units of 2^-149, that rounds to infinity: 2^128 - 2^103, half way
between the largest finite value and 2^128 (R61). -/
def F32.overflowBound : Nat := (2 ^ 25 - 1) * 2 ^ 252

/-- The finite `r` is the exact value `v` (in units of 2^-(149+k)) rounded once to nearest, ties to
even: no finite value is nearer, and where another is as near, the last bit of `r` is 0
(R61, R62). -/
def F32.RoundsTo (k : Nat) (v : Int) (r : F32) : Prop :=
  F32.isFinite r = true ∧ ∀ c, F32.isFinite c = true →
    (v - F32.exact r * 2 ^ k).natAbs ≤ (v - F32.exact c * 2 ^ k).natAbs ∧
      ((v - F32.exact r * 2 ^ k).natAbs = (v - F32.exact c * 2 ^ k).natAbs →
        F32.exact c ≠ F32.exact r → F32.fraction r % 2 = 0)

/-- A step that went on to a next state. -/
def next? (o : Host.Outcome State Fault Refusal) : Option State :=
  match o with
  | .next s => some s
  | .fault _ => none
  | .refused _ => none

end Sys2Proof.Machine
end

