-- ==== Sys2Proof/Certificates/Slice0/Obligations.lean ====
section
/-! DEFINITION. The statements for the provers, from the numbered rules of spec/ (OBLIGATIONS.json
lists them). Stored bytes are those of pixel `(s.index x y).toNat`, the place the meanings use. -/

open Sys2Proof Sys2Proof.Machine

/-! ## Encoding (spec/30_encoding.md) -/

/-- R42, R44, R46, R47: no bit of a command is lost between encoder and decoder. -/
def Obligations.DecodeOfEncode : Prop :=
  ∀ i : Instr, i.wf = true → decode (encode i) = .ok i

/-- R42, R44: what a legal word is decoded as is well formed, and the word is its encoding but for
the fields FILL and SETOPA ignore. -/
def Obligations.EncodeOfDecode : Prop :=
  ∀ (w : CmdWord) (i : Instr), decode w = .ok i →
    i.wf = true ∧
    match i with
    | .fill v => v = w.colour ∧ w = assembleWord 9 (w.extractLsb' 32 32) (w.extractLsb' 64 32) v
    | .setopa v => v = w.colour.a ∧
        w = assembleWord 10 (w.extractLsb' 32 32) (w.extractLsb' 64 32) w.colour
    | i => encode i = w

/-- R48: which words are reserved; every other word is a command; the machine refuses a
reserved word, and refuses nothing else. -/
def Obligations.ReservedWordsExactly : Prop :=
  (∀ w : CmdWord, (∃ why, decode w = .error why) ↔ (0xB ≤ w.op.toNat ∨ w.z0 ≠ 0 ∨ w.z1 ≠ 0)) ∧
  (∀ w : CmdWord, (∃ i, decode w = .ok i) ↔ (w.op.toNat < 0xB ∧ w.z0 = 0 ∧ w.z1 = 0)) ∧
  ∀ (w : CmdWord) (s : State), (∃ r, runWord w s = .refused r) ↔
    (0xB ≤ w.op.toNat ∨ w.z0 ≠ 0 ∨ w.z1 ≠ 0)

/-- R42, R44, R46, R47: words written out from the layout (`spec/95_test_vectors.md` part 2.3)
decode to the commands they stand for. -/
def Obligations.WrittenWordsDecode : Prop :=
  decode 0x000000013F000000800000007FC00001000000007FFFFFFFFFFFFFFF00000002#256 =
      .ok (.wpxAlphaC (-1) 2147483647 ⟨0x7FC00001#32, 0x80000000#32, 0x3F000000#32, 1#32⟩) ∧
    decode 0x3F8000003F4000003F0000003E80000000000000FFFFFFFD0000000200000005#256 =
      .ok (.wpxAddU 2 (-3) ⟨0x3E800000#32, 0x3F000000#32, 0x3F400000#32, 0x3F800000#32⟩) ∧
    decode 0x0000000000000000000000000000000000000000000000008000000000000008#256 =
      .ok (.get (-2147483648) 0 ⟨0#32, 0#32, 0#32, 0#32⟩) ∧
    decode 0x3F0000003E99999A3E4CCCCD3DCCCCCD0000000000000007000000050000000A#256 =
      .ok (.setopa 0x3F000000#32) ∧
    decode 0x3F8000003F8000003F8000003F80000000000001000000000000000000000009#256 =
      .error (.z1 1#32) ∧
    decode 0x0000000B#256 = .error (.opcode 0xB#4)

/-- R81, R49, R50: a word whose opcode is `{0, bounds, mode}` does what the named primitive does. -/
def Obligations.DispatcherIsNamedPrimitive : Prop :=
  ∀ (mode : BlendMode) (bounds : BoundsMode) (w : CmdWord) (s : State),
    w.z0 = 0 → w.z1 = 0 → w.op.toNat = 4 * bounds.code.toNat + mode.code.toNat →
    runWord w s = exec (match bounds, mode with
      | .checked, .none => .wpxNoneC w.x w.y w.colour
      | .checked, .add => .wpxAddC w.x w.y w.colour
      | .checked, .alpha => .wpxAlphaC w.x w.y w.colour
      | .checked, .clip => .wpxClipC w.x w.y w.colour
      | .unchecked, .none => .wpxNoneU w.x w.y w.colour
      | .unchecked, .add => .wpxAddU w.x w.y w.colour
      | .unchecked, .alpha => .wpxAlphaU w.x w.y w.colour
      | .unchecked, .clip => .wpxClipU w.x w.y w.colour) s

/-- R53, R92: the pseudo-commands are assembled to the words of the commands they stand for, the
dispatcher's form to the word of the primitive it names, with its own operands. What word a line
has whose coordinates do not fit their fields is the model's choice (log 18). -/
def Obligations.PseudoCommandsExpand : Prop :=
  (∀ v, (AsmLine.clear v).word = (AsmLine.fill v).word) ∧
    (∀ x y v, (AsmLine.set x y v).word = (AsmLine.wpx .none .checked x y v).word) ∧
    ∀ mode bounds x y v,
      (AsmLine.wpx mode bounds x y v).word.op = 0#1 ++ bounds.code ++ mode.code ∧
      (AsmLine.wpx mode bounds x y v).word = encode (match bounds, mode with
        | .checked, .none => .wpxNoneC x y v.value
        | .checked, .add => .wpxAddC x y v.value
        | .checked, .alpha => .wpxAlphaC x y v.value
        | .checked, .clip => .wpxClipC x y v.value
        | .unchecked, .none => .wpxNoneU x y v.value
        | .unchecked, .add => .wpxAddU x y v.value
        | .unchecked, .alpha => .wpxAlphaU x y v.value
        | .unchecked, .clip => .wpxClipU x y v.value)

/-- R7, R72, section 6.2: the assembler's 0.99 is `CLIP_T`, and 1.3 is the nearest binary32 value. -/
def Obligations.DecimalConstants : Prop :=
  (AsmNumber.decimal false 99 2).value = Config.clipT ∧
    Config.clipT = 0x3F7D70A4#32 ∧ (AsmNumber.decimal false 1 0).value = Config.one ∧
    (AsmNumber.decimal false 13 1).value = 0x3FA66666#32

/-! ## The store (spec/20_memory.md) -/

/-- R27: `valid` is the rectangle, and `index` a bijection from it onto `0 .. LENGTH-1`. -/
def Obligations.ValidIsRectangle : Prop :=
  ∀ s : State, s.length = s.width * s.height →
    (∀ x y, s.valid x y = true ↔ (0 ≤ x ∧ x < s.width) ∧ 0 ≤ y ∧ y < s.height) ∧
    (∀ x y x' y', s.valid x y = true → s.valid x' y' = true →
      s.index x y = s.index x' y' → x = x' ∧ y = y') ∧
    ∀ idx : Nat, idx < s.length → ∃ x y, s.valid x y = true ∧ s.index x y = idx

/-- R31: where the channels stand in a packed pixel and in its bytes. -/
def Obligations.PackingOrder : Prop :=
  ∀ p : Pixel, p.pack.extractLsb' 0 32 = p.r ∧ p.pack.extractLsb' 32 32 = p.g ∧
    p.pack.extractLsb' 64 32 = p.b ∧ p.pack.extractLsb' 96 32 = p.a ∧
    p.byte 0 = p.r.extractLsb' 0 8 ∧ p.byte 15 = p.a.extractLsb' 24 8

/-- R9, R11, R17, R24: every step keeps the invariant. -/
def Obligations.StepKeepsInvariant : Prop :=
  ∀ s t : State, s.Inv → step s = .next t → t.Inv

/-- R23, R128: the state after reset of every instance that can exist has the invariant. -/
def Obligations.ResetHasInvariant : Prop :=
  State.reset.Inv ∧
    ∀ (w h : Nat) (p : Pixel) (inputs : List Input), dimsOk w h →
      (State.resetWith w h p inputs).Inv

/-- R11: no step changes a dimension; an instance with a zero dimension is legal, its checked writes
and fills change nothing and its GET returns the border value. -/
def Obligations.DimensionsFixed : Prop :=
  (∀ s t : State, step s = .next t →
    t.width = s.width ∧ t.height = s.height ∧ t.length = s.length) ∧
  (∀ h : Nat, h < 2 ^ 31 → dimsOk 0 h ∧ dimsOk h 0) ∧
  ∀ s : State, s.length = s.width * s.height → s.width = 0 ∨ s.height = 0 →
    s.length = 0 ∧ (∀ v, exec (.fill v) s = .next s) ∧
    ∀ x y c, exec (.wpxNoneC x y c) s = .next s ∧ exec (.wpxAddC x y c) s = .next s ∧
      exec (.wpxAlphaC x y c) s = .next s ∧ exec (.wpxClipC x y c) s = .next s ∧
      exec (.get x y c) s = .next { s with rsp := some c }

/-! ## Reset and the step (spec/70_reset_and_hazards.md, spec/30_encoding.md) -/

/-- R23: what reset leaves, of any instance and any initial pixel, and from any state in which
`rst` is sampled high. Two clauses are the model's choice: that `rst` gives every instance the
default `INIT_PIXEL`, four `+0.0` (log 2), and that `cmd_ready` is high in every State (log 10). -/
def Obligations.ResetState : Prop :=
  (∀ (w h : Nat) (p : Pixel) (inputs : List Input),
    let s := State.resetWith w h p inputs
    s.width = w ∧ s.height = h ∧ s.length = w * h ∧ s.opacity = 0x3F800000#32 ∧
      (∀ idx < w * h, s.memRead idx = p) ∧ cmdReady s = true ∧ rspValid s = false) ∧
  (∀ s : State, s.offered = .reset → ∃ t, step s = .next t ∧
    t.width = s.width ∧ t.height = s.height ∧ t.length = s.length ∧ t.opacity = 0x3F800000#32 ∧
      (∀ idx < t.length, t.memRead idx = Config.initPixel) ∧ cmdReady t = true ∧
      rspValid t = false) ∧
  Config.initPixel = ⟨0x00000000#32, 0x00000000#32, 0x00000000#32, 0x00000000#32⟩

/-- R23, R126: `State.reset` is that state of the instance logs 2, 3 and 4 name. -/
def Obligations.ResetIsAnInstance : Prop :=
  State.reset = State.resetWith 4 3 Config.initPixel []

/-- R126, with the model's stream and draw counter of logs 4 and 6: the whole next state of a clock
edge with `rst` high. The store is the one nothing has been written to, so that every instance is
given the default `INIT_PIXEL`: the model's choice, log 2. -/
def Obligations.ResetInput : Prop :=
  ∀ (s : State) (rest : List Input), s.inputs = .reset :: rest →
    step s = .next { s with opacity := 0x3F800000#32, store := [], rsp := none, inputs := rest }

/-- R43, R36: a step runs the decoded command on the state the last response has gone from, and
where that goes on the host's stream has moved on by the command; a stop of the command is the
step's. The stream is the model's (logs 4, 5), as is the response's one step (log 7). -/
def Obligations.StepRunsDecodedCommand : Prop :=
  (∀ (s : State) (position : Nat) (w : CmdWord) (rest : List Input) (i : Instr),
    s.inputs = .command position w :: rest → decode w = .ok i →
    step s = onNext (fun t => { t with inputs := rest }) (exec i { s with rsp := none })) ∧
  ∀ (s : State) (nbits w : Nat) (i : Instr), decodeTableWord nbits w = some i →
    step (s.withFetchWord nbits w) = onNext (fun t => { t with inputs := s.inputs })
      (exec i { s with rsp := none, inputs := (s.withFetchWord nbits w).inputs })

/-- R13, R43: where the host offers nothing, only the response of the last step goes. -/
def Obligations.StepIdles : Prop :=
  (∀ s : State, s.inputs = [] → step s = .next { s with rsp := none }) ∧
    ∀ (s : State) (rest : List Input), s.inputs = .idle :: rest →
      step s = .next { s with inputs := rest, rsp := none }

/-- R110, R112, R48: the only fault is an unchecked write out of range and the only refusal a
reserved word; each names the command and the place the host's stream gives it (log 5). -/
def Obligations.StopsNameTheCommand : Prop :=
  (∀ (s : State) (f : Fault), step s = .fault f ↔
    ∃ n w mode x y c, s.offered = .command n w ∧
      decode w = .ok (Instr.wpx mode .unchecked x y c) ∧ s.valid x y = false ∧
      f = .uncheckedOutOfRange (some n) x y) ∧
  ∀ (s : State) (r : Refusal), step s = .refused r ↔
    ∃ n w why, s.offered = .command n w ∧ decode w = .error why ∧
      r = .reservedWord (some n) w why

/-- R84 (b), R90, R91, R93, R130: every command completes, an unchecked one where the host has
established its coordinates. -/
def Obligations.SafeCommandCompletes : Prop :=
  ∀ (i : Instr) (s : State), s.safeCommand i = true → ∃ t, exec i s = .next t

/-! ## Pixel writes (spec/40_pixel_write.md) -/

/-- R69, R73, R74: on valid coordinates None stores the colour, all 128 bits, and nothing else. -/
def Obligations.NoneReplacesPixel : Prop :=
  ∀ (s : State) (x y : Int) (c : Pixel), Memory.wf s.store → s.valid x y = true →
    ∃ t, exec (.wpxNoneC x y c) s = .next t ∧ exec (.wpxNoneU x y c) s = .next t ∧
      s.Replaced t (s.index x y).toNat c

/-- R70, R75, R76: on valid coordinates Add stores the formula's result with alpha 1, a channel
computed to NaN being some NaN (R65). -/
def Obligations.AddBlendsPixel : Prop :=
  ∀ (s : State) (x y : Int) (c : Pixel), Memory.wf s.store → s.valid x y = true →
    let d := s.memRead (s.index x y).toNat
    ∃ nan t, Pixel.AllNaN nan ∧
      exec (.wpxAddC x y c) s = .next t ∧ exec (.wpxAddU x y c) s = .next t ∧
      s.Replaced t (s.index x y).toNat
        ⟨fadd nan.r (fmul nan.r c.r c.a) d.r, fadd nan.g (fmul nan.g c.g c.a) d.g,
          fadd nan.b (fmul nan.b c.b c.a) d.b, 0x3F800000#32⟩

/-- R71, R77, R78: on valid coordinates Alpha stores the formula's result, each step rounded, a
channel computed to NaN being some NaN (R65). -/
def Obligations.AlphaBlendsPixel : Prop :=
  ∀ (s : State) (x y : Int) (c : Pixel), Memory.wf s.store → s.valid x y = true →
    let d := s.memRead (s.index x y).toNat
    ∃ nan t, Pixel.AllNaN nan ∧
      exec (.wpxAlphaC x y c) s = .next t ∧ exec (.wpxAlphaU x y c) s = .next t ∧
      let a := fmul nan.a c.a s.opacity
      let na := fsub nan.a 0x3F800000#32 a
      s.Replaced t (s.index x y).toNat
        ⟨fadd nan.r (fmul nan.r c.r a) (fmul nan.r d.r na),
          fadd nan.g (fmul nan.g c.g a) (fmul nan.g d.g na),
          fadd nan.b (fmul nan.b c.b a) (fmul nan.b d.b na),
          fadd nan.a a (fmul nan.a d.a na)⟩

/-- R72, R79, R80: on valid coordinates Clip stores the colour where its alpha is greater than the
binary32 value nearest 0.99, and changes nothing where it is not. -/
def Obligations.ClipTestsAlpha : Prop :=
  ∀ (s : State) (x y : Int) (c : Pixel), Memory.wf s.store → s.valid x y = true →
    if fgt c.a 0x3F7D70A4#32 then
      ∃ t, exec (.wpxClipC x y c) s = .next t ∧ exec (.wpxClipU x y c) s = .next t ∧
        s.Replaced t (s.index x y).toNat c
    else exec (.wpxClipC x y c) s = .next s ∧ exec (.wpxClipU x y c) s = .next s

/-- R65, U3, in the form of log 6: on valid coordinates Add and Alpha take the NaNs of the draw the
state is at and go on to the next one; None and Clip draw nothing. -/
def Obligations.DrawsAreFresh : Prop :=
  ∀ (s t : State) (bounds : BoundsMode) (x y : Int) (c : Pixel),
    Memory.wf s.store → s.valid x y = true →
    let d := s.memRead (s.index x y).toNat
    (exec (Instr.wpx .add bounds x y c) s = .next t → t.draws = s.draws + 1 ∧
      t.memRead (s.index x y).toNat = blendAdd (freeNaNs s.draws) c d) ∧
    (exec (Instr.wpx .alpha bounds x y c) s = .next t → t.draws = s.draws + 1 ∧
      t.memRead (s.index x y).toNat = blendAlpha (freeNaNs s.draws) c d s.opacity) ∧
    (exec (Instr.wpx .none bounds x y c) s = .next t → t.draws = s.draws) ∧
    (exec (Instr.wpx .clip bounds x y c) s = .next t → t.draws = s.draws)

/-- R68, R111 (b): a checked write out of range is a silent no-op. -/
def Obligations.CheckedOutOfRangeIsNop : Prop :=
  ∀ (s : State) (x y : Int) (c : Pixel), s.valid x y = false →
    exec (.wpxNoneC x y c) s = .next s ∧ exec (.wpxAddC x y c) s = .next s ∧
      exec (.wpxAlphaC x y c) s = .next s ∧ exec (.wpxClipC x y c) s = .next s

/-- R82: an unchecked write out of range is the model's fault, whatever mode, colour and alpha. -/
def Obligations.UncheckedOutOfRangeFaults : Prop :=
  ∀ (s : State) (x y : Int) (c : Pixel), s.valid x y = false → ∃ position,
    exec (.wpxNoneU x y c) s = .fault (.uncheckedOutOfRange position x y) ∧
      exec (.wpxAddU x y c) s = .fault (.uncheckedOutOfRange position x y) ∧
      exec (.wpxAlphaU x y c) s = .fault (.uncheckedOutOfRange position x y) ∧
      exec (.wpxClipU x y c) s = .fault (.uncheckedOutOfRange position x y)

/-- R68, R84 (a): whatever a pixel write does, no register, no response and no byte outside its own
pixel changes, and out of range nothing does. -/
def Obligations.PixelWriteFrame : Prop :=
  ∀ (mode : BlendMode) (bounds : BoundsMode) (s t : State) (x y : Int) (c : Pixel),
    exec (Instr.wpx mode bounds x y c) s = .next t →
    t = { s with store := t.store, draws := t.draws } ∧
      (∀ a, a < 16 * (s.index x y).toNat ∨ 16 * (s.index x y).toNat + 16 ≤ a →
        Memory.read t.store a = Memory.read s.store a) ∧
      (s.valid x y = false → t = s)

/-- R84 (c), R68: on valid coordinates the checked and the unchecked primitive are the same. -/
def Obligations.BoundsModesAgree : Prop :=
  ∀ (mode : BlendMode) (s : State) (x y : Int) (c : Pixel), s.valid x y = true →
    exec (Instr.wpx mode .checked x y c) s = exec (Instr.wpx mode .unchecked x y c) s

/-- R18, R70, R72, C6: only Alpha reads OPACITY; another value of it passes through every other
command but SETOPA unnoticed. -/
def Obligations.OpacityReadByAlphaOnly : Prop :=
  ∀ (i : Instr) (s t : State) (v : F32),
    (∀ x y c, i ≠ .wpxAlphaC x y c ∧ i ≠ .wpxAlphaU x y c) → (∀ u, i ≠ .setopa u) →
    exec i s = .next t → exec i { s with opacity := v } = .next { t with opacity := v }

/-- R18: OPACITY is written only by SETOPA and by reset. -/
def Obligations.OpacityWriters : Prop :=
  ∀ s t : State, step s = .next t → t.opacity ≠ s.opacity →
    (s.offered = .reset ∧ t.opacity = 0x3F800000#32) ∨
      ∃ n w, s.offered = .command n w ∧ decode w = .ok (.setopa t.opacity)

/-- R84 (e), R134: Add and Alpha are not idempotent: on one pixel, the second write of the same
command reads the first one's result and stores another value. -/
def Obligations.AddAlphaNotIdempotent : Prop :=
  ∃ (nan s d : Pixel), blendAdd nan s (blendAdd nan s d) ≠ blendAdd nan s d ∧
    blendAlpha nan s (blendAlpha nan s d 0x3F800000#32) 0x3F800000#32 ≠
      blendAlpha nan s d 0x3F800000#32

/-- R27, R36, `48_client_usage.md` section 2: None writes to two different pixels give the same
state in either order; two to one pixel leave the later one (R133). -/
def Obligations.NoneWritesOrder : Prop :=
  ∀ (s : State) (x y x' y' : Int) (c c' : Pixel), Memory.wf s.store →
    s.valid x y = true → s.valid x' y' = true →
    ∃ t t' u u', exec (.wpxNoneC x y c) s = .next t ∧ exec (.wpxNoneC x' y' c') s = .next t' ∧
      exec (.wpxNoneC x' y' c') t = .next u ∧ exec (.wpxNoneC x y c) t' = .next u' ∧
      (s.index x y ≠ s.index x' y' → u = u') ∧ (s.index x y = s.index x' y' → u = t')

/-! ## Pixel-store commands (spec/41_buffer_ops.md) and the ports -/

/-- R90: GET is the command of opcode 8 and takes its border value from the colour fields; it
responds the stored pixel or the border value, and writes no state. -/
def Obligations.GetResponds : Prop :=
  (∀ w : CmdWord, w.z0 = 0 → w.z1 = 0 → w.op = 0x8#4 →
    decode w = .ok (.get w.x w.y w.colour)) ∧
  ∀ (s : State) (x y : Int) (border : Pixel),
    exec (.get x y border) s = .next { s with
      rsp := some (if s.valid x y then s.memRead (s.index x y).toNat else border) }

/-- R91: FILL is the command of opcode 9 and ignores the coordinate fields; it writes every pixel,
and nothing but the store. -/
def Obligations.FillSetsEveryPixel : Prop :=
  (∀ w : CmdWord, w.z0 = 0 → w.z1 = 0 → w.op = 0x9#4 → decode w = .ok (.fill w.colour)) ∧
  ∀ (s : State) (v : Pixel), Memory.wf s.store →
    ∃ t, exec (.fill v) s = .next t ∧ t = { s with store := t.store } ∧
      (∀ idx < s.length, t.memRead idx = v) ∧
      ∀ a, 16 * s.length ≤ a → Memory.read t.store a = Memory.read s.store a

/-- R93: SETOPA is the command of opcode 10 and reads only the field `cA`; it writes OPACITY, any
pattern, and nothing else. -/
def Obligations.SetopaWritesOpacity : Prop :=
  (∀ w : CmdWord, w.z0 = 0 → w.z1 = 0 → w.op = 0xA#4 →
    decode w = .ok (.setopa (w.extractLsb' 224 32))) ∧
  ∀ (s : State) (v : F32), exec (.setopa v) s = .next { s with opacity := v }

/-- R94: SET then GET gives the value back for valid coordinates; out of range SET does nothing. -/
def Obligations.SetThenGet : Prop :=
  ∀ (s : State) (x y : Int) (v b : Pixel),
    (Memory.wf s.store → s.valid x y = true → ∃ t u, exec (Instr.set x y v) s = .next t ∧
      exec (.get x y b) t = .next u ∧ u.rsp = some v) ∧
    (s.valid x y = false → exec (Instr.set x y v) s = .next s)

/-- R129: the order of FILL and SETOPA does not matter. -/
def Obligations.FillSetopaCommute : Prop :=
  ∀ (s : State) (v : Pixel) (o : F32), ∃ t t' u,
    exec (.fill v) s = .next t ∧ exec (.setopa o) s = .next t' ∧
      exec (.setopa o) t = .next u ∧ exec (.fill v) t' = .next u

/-- R91, R23: filling with the initial pixel gives the store reset leaves, as data. -/
def Obligations.FillWithInitialPixelIsResetStore : Prop :=
  ∀ s : State, s.Inv → ∃ t, exec (.fill Config.initPixel) s = .next t ∧
    t.store = State.reset.store

/-- R45: a step leaves a response exactly where it ran a GET. -/
def Obligations.OnlyGetResponds : Prop :=
  ∀ s t : State, step s = .next t →
    (rspValid t = true ↔
      ∃ n w x y b, s.offered = .command n w ∧ decode w = .ok (.get x y b))

/-- R15, R16, R17, R18, R54: the status port shows the four registers, the first three exactly. -/
def Obligations.StatusPortValues : Prop :=
  ∀ s : State, s.Inv →
    (csrVal s 0).toNat = s.width ∧ (csrVal s 1).toNat = s.height ∧
      (csrVal s 2).toNat = s.width * s.height ∧ csrVal s 3 = s.opacity ∧
      (csrVal s 0).msb = false ∧ (csrVal s 1).msb = false ∧ (csrVal s 2).msb = false

/-- R55, R90: the scan-out port and GET show the same stored pixel. -/
def Obligations.ScanOutShowsStore : Prop :=
  ∀ (sample : Nat) (s : State) (x y : Int) (b : Pixel), s.Inv → s.valid x y = true →
    ∃ t, exec (.get x y b) s = .next t ∧
      soVal sample s (BitVec.ofInt 31 (s.index x y)) = rspBus sample t ∧
      Pixel.unpack (soVal sample s (BitVec.ofInt 31 (s.index x y))) =
        s.memRead (s.index x y).toNat

/-! ## Arithmetic (spec/40_pixel_write.md section 1.1). `n` is the NaN given to a NaN result. -/

/-- R61: `fmul` is the IEEE 754 binary32 product. -/
def Obligations.MulIsRoundedProduct : Prop :=
  ∀ n a b : F32,
    ((F32.isNaN a = true ∨ F32.isNaN b = true ∨
        (F32.isInf a = true ∧ F32.isZero b = true) ∨
        (F32.isZero a = true ∧ F32.isInf b = true)) → fmul n a b = n) ∧
    (F32.isNaN a = false → F32.isNaN b = false → F32.isZero a = false → F32.isZero b = false →
      (F32.isInf a = true ∨ F32.isInf b = true) →
      F32.isInf (fmul n a b) = true ∧ F32.sign (fmul n a b) = (F32.sign a ^^ F32.sign b)) ∧
    (F32.isFinite a = true → F32.isFinite b = true →
      F32.sign (fmul n a b) = (F32.sign a ^^ F32.sign b) ∧
      if (F32.exact a * F32.exact b).natAbs < F32.overflowBound * 2 ^ 149 then
        F32.RoundsTo 149 (F32.exact a * F32.exact b) (fmul n a b)
      else F32.isInf (fmul n a b) = true)

/-- R62: `fadd` is the IEEE 754 binary32 sum. -/
def Obligations.AddIsRoundedSum : Prop :=
  ∀ n a b : F32,
    ((F32.isNaN a = true ∨ F32.isNaN b = true ∨
        (F32.isInf a = true ∧ F32.isInf b = true ∧ F32.sign a ≠ F32.sign b)) → fadd n a b = n) ∧
    (F32.isInf a = true → F32.isNaN b = false →
      (F32.isInf b = true → F32.sign a = F32.sign b) → fadd n a b = a ∧ fadd n b a = a) ∧
    (F32.isFinite a = true → F32.isFinite b = true →
      (F32.exact a + F32.exact b = 0 → F32.isZero (fadd n a b) = true ∧
        (F32.sign (fadd n a b) = true ↔
          F32.isZero a = true ∧ F32.isZero b = true ∧ F32.sign a = true ∧ F32.sign b = true)) ∧
      (F32.exact a + F32.exact b ≠ 0 →
        F32.sign (fadd n a b) = decide (F32.exact a + F32.exact b < 0)) ∧
      if (F32.exact a + F32.exact b).natAbs < F32.overflowBound then
        F32.RoundsTo 0 (F32.exact a + F32.exact b) (fadd n a b)
      else F32.isInf (fadd n a b) = true)

/-- R63: `fsub` is `fadd` with the sign of the second operand inverted, a difference of exact
values, and `ONE - ONE` is `+0.0`. -/
def Obligations.SubIsAddNegated : Prop :=
  (∀ n a b : F32, ∃ b', F32.sign b' = (!F32.sign b) ∧ b'.extractLsb' 0 31 = b.extractLsb' 0 31 ∧
    F32.exact b' = -F32.exact b ∧ fsub n a b = fadd n a b') ∧
  ∀ n, fsub n 0x3F800000#32 0x3F800000#32 = 0x00000000#32

/-- R64: `fgt` is the strict order of the real values, false on a NaN. -/
def Obligations.GreaterIsRealOrder : Prop :=
  ∀ a b : F32,
    ((F32.isNaN a = true ∨ F32.isNaN b = true) → fgt a b = false) ∧ fgt a a = false ∧
    (F32.isFinite a = true → F32.isFinite b = true →
      (fgt a b = true ↔ F32.exact b < F32.exact a)) ∧
    (F32.isInf a = true → F32.sign a = false → F32.isFinite b = true →
      fgt a b = true ∧ fgt b a = false) ∧
    (F32.isInf a = true → F32.sign a = true → F32.isFinite b = true →
      fgt a b = false ∧ fgt b a = true) ∧
    fgt 0x80000000#32 0x00000000#32 = false ∧ fgt 0x00000000#32 0x80000000#32 = false

/-- R65, R67: what is drawn for a lane is a NaN; and every channel Add or Alpha computes is either
the NaN drawn for its lane, or a value that is no NaN and does not depend on the draw. -/
def Obligations.ComputedNaNIsDrawn : Prop :=
  (∀ draw lane, F32.isNaN (freeNaN draw lane) = true) ∧
  ∀ (nan nan' s d : Pixel) (o : F32) (ch : Pixel → F32),
    Pixel.AllNaN nan → Pixel.AllNaN nan' →
    ch = Pixel.r ∨ ch = Pixel.g ∨ ch = Pixel.b ∨ ch = Pixel.a →
    ((ch (blendAdd nan s d) = ch nan ∧ ch (blendAdd nan' s d) = ch nan') ∨
      (ch (blendAdd nan s d) = ch (blendAdd nan' s d) ∧
        F32.isNaN (ch (blendAdd nan s d)) = false)) ∧
    ((ch (blendAlpha nan s d o) = ch nan ∧ ch (blendAlpha nan' s d o) = ch nan') ∨
      (ch (blendAlpha nan s d o) = ch (blendAlpha nan' s d o) ∧
        F32.isNaN (ch (blendAlpha nan s d o)) = false))

/-- R84 (g): with OPACITY 1.0 the source alpha is `s.A` exactly, for every value but a NaN. -/
def Obligations.OpacityOneIsNeutral : Prop :=
  ∀ n v : F32, F32.isNaN v = false → fmul n v 0x3F800000#32 = v

/-- R77 (a), C8: an opaque source at opacity 1 comes out exactly, where the destination is finite
and no colour of the source is a NaN or `-0.0`. -/
def Obligations.OpaqueAlphaIsSource : Prop :=
  ∀ nan s d : Pixel, s.a = 0x3F800000#32 →
    (F32.isFinite d.r = true ∧ F32.isFinite d.g = true ∧ F32.isFinite d.b = true ∧
      F32.isFinite d.a = true) →
    (F32.isNaN s.r = false ∧ F32.isNaN s.g = false ∧ F32.isNaN s.b = false) →
    (s.r ≠ 0x80000000#32 ∧ s.g ≠ 0x80000000#32 ∧ s.b ≠ 0x80000000#32) →
    blendAlpha nan s d 0x3F800000#32 = s

/-- R77 (b): a source whose effective alpha is a zero leaves the destination, where the source's
colours are finite and no channel of the destination is a NaN or `-0.0`. -/
def Obligations.TransparentAlphaIsDestination : Prop :=
  ∀ (nan s d : Pixel) (o : F32),
    F32.isZero (fmul nan.a s.a o) = true →
    (F32.isFinite s.r = true ∧ F32.isFinite s.g = true ∧ F32.isFinite s.b = true) →
    (F32.isNaN d.r = false ∧ F32.isNaN d.g = false ∧ F32.isNaN d.b = false ∧
      F32.isNaN d.a = false) →
    (d.r ≠ 0x80000000#32 ∧ d.g ≠ 0x80000000#32 ∧ d.b ≠ 0x80000000#32 ∧ d.a ≠ 0x80000000#32) →
    blendAlpha nan s d o = d

/-- R77 (e), R75: a NaN alpha or opacity makes all four Alpha channels NaN; a NaN alpha makes the
three Add colours NaN while the stored alpha is 1.0. -/
def Obligations.NaNAlphaSpreads : Prop :=
  ∀ (draw : Nat) (s d : Pixel) (o : F32),
    let nan := freeNaNs draw
    ((F32.isNaN s.a = true ∨ F32.isNaN o = true) → blendAlpha nan s d o = nan) ∧
    (F32.isNaN s.a = true → blendAdd nan s d = ⟨nan.r, nan.g, nan.b, 0x3F800000#32⟩)

/-- R75: with alpha `+0.0` and finite colours an Add leaves the destination's colours, where none is
a NaN or `-0.0`, and still forces alpha to 1. -/
def Obligations.AddOfZeroAlphaKeepsColour : Prop :=
  ∀ nan s d : Pixel, s.a = 0x00000000#32 →
    (F32.isFinite s.r = true ∧ F32.isFinite s.g = true ∧ F32.isFinite s.b = true) →
    (F32.isNaN d.r = false ∧ F32.isNaN d.g = false ∧ F32.isNaN d.b = false) →
    (d.r ≠ 0x80000000#32 ∧ d.g ≠ 0x80000000#32 ∧ d.b ≠ 0x80000000#32) →
    blendAdd nan s d = ⟨d.r, d.g, d.b, 0x3F800000#32⟩

/-- R72, R79: the threshold itself, 0.98, a NaN and a negative alpha fail the test; the next value
up, 1.0 and infinity pass it. -/
def Obligations.ClipThresholdStrict : Prop :=
  fgt 0x3F7D70A4#32 Config.clipT = false ∧ fgt 0x3F7AE148#32 Config.clipT = false ∧
    fgt 0x7FC00000#32 Config.clipT = false ∧ fgt 0xBF800000#32 Config.clipT = false ∧
    fgt 0x3F7D70A5#32 Config.clipT = true ∧ fgt 0x3F800000#32 Config.clipT = true ∧
    fgt 0x7F800000#32 Config.clipT = true

/-- TGE section 8, R70, R75: the source's own Add example, with no clamp at 1.0. -/
def Obligations.AddExampleNotClamped : Prop :=
  ∀ nan : Pixel, ∀ dA : F32,
    blendAdd nan ⟨0x3F000000#32, 0x00000000#32, 0x00000000#32, 0x3F800000#32⟩
        ⟨0x3F4CCCCD#32, 0x3F4CCCCD#32, 0x3F4CCCCD#32, dA⟩ =
      ⟨0x3FA66666#32, 0x3F4CCCCD#32, 0x3F4CCCCD#32, 0x3F800000#32⟩
end

