-- ==== Sys2Proof/Laws/Float.lean ====
section
/-! SUPPORT. The laws of the binary32 format and of its operations (spec/40_pixel_write.md R60 to
R65): a pattern and its parts, what rounding gives, and what each operation can answer. -/

namespace Sys2Proof.Machine

/-! ## A pattern is a sign and 31 lower bits -/

/-- The lower 31 bits: exponent and fraction. -/
def F32.low (v : F32) : Nat := (v.extractLsb' 0 31).toNat

theorem F32.low_eq (v : F32) : F32.low v = v.toNat % 2 ^ 31 := by
  simp [F32.low, BitVec.extractLsb'_toNat]

theorem F32.low_lt (v : F32) : F32.low v < 2 ^ 31 := (v.extractLsb' 0 31).isLt

theorem F32.exponent_eq (v : F32) : F32.exponent v = F32.low v / 2 ^ 23 := by
  simp only [F32.exponent, F32.low_eq, BitVec.extractLsb'_toNat, Nat.shiftRight_eq_div_pow]
  omega

theorem F32.fraction_eq (v : F32) : F32.fraction v = F32.low v % 2 ^ 23 := by
  simp only [F32.fraction, F32.low_eq, BitVec.extractLsb'_toNat, Nat.shiftRight_eq_div_pow]
  omega

/-- The sign as the top bit's weight. -/
theorem F32.toNat_eq (v : F32) :
    v.toNat = (if F32.sign v then 2 ^ 31 else 0) + F32.low v := by
  have := v.isLt
  simp only [F32.sign, F32.low_eq, BitVec.msb_eq_decide, decide_eq_true_eq]
  split <;> omega

/-- A pattern is determined by its sign and its lower bits. -/
theorem F32.ext {v w : F32} (hs : F32.sign v = F32.sign w) (hl : F32.low v = F32.low w) :
    v = w := by
  apply BitVec.eq_of_toNat_eq
  rw [F32.toNat_eq, F32.toNat_eq, hs, hl]

@[simp] theorem F32.sign_ofSignBits (s : Bool) (b : Nat) : F32.sign (F32.ofSignBits s b) = s := by
  simp only [F32.sign, F32.ofSignBits]
  rw [BitVec.msb_append]
  simp

theorem F32.low_ofSignBits (s : Bool) {b : Nat} (h : b < 2 ^ 31) :
    F32.low (F32.ofSignBits s b) = b := by
  have hx : (F32.ofSignBits s b).extractLsb' 0 31 = BitVec.ofNat 31 b := by
    apply BitVec.eq_of_getLsbD_eq
    intro i hi
    simp only [F32.ofSignBits, BitVec.getLsbD_extractLsb', BitVec.getLsbD_append]
    simp [hi]
  rw [F32.low, hx, BitVec.toNat_ofNat, Nat.mod_eq_of_lt h]

/-- A pattern put together from its own parts. -/
@[simp] theorem F32.ofSignBits_self (v : F32) : F32.ofSignBits (F32.sign v) (F32.low v) = v :=
  F32.ext (F32.sign_ofSignBits _ _) (F32.low_ofSignBits _ (F32.low_lt v))

@[simp] theorem F32.low_negate (v : F32) : F32.low (F32.negate v) = F32.low v := by
  have h : (F32.negate v).extractLsb' 0 31 = v.extractLsb' 0 31 := by
    apply BitVec.eq_of_getLsbD_eq
    intro i hi
    simp only [F32.negate, BitVec.getLsbD_extractLsb', BitVec.getLsbD_xor]
    have : (0x80000000#32).getLsbD (0 + i) = false := by
      have hi' : 0 + i < 31 := by omega
      generalize 0 + i = j at hi'
      revert j
      decide
    rw [this]; simp
  rw [F32.low, h, F32.low]

@[simp] theorem F32.sign_negate (v : F32) : F32.sign (F32.negate v) = !F32.sign v := by
  simp only [F32.sign, F32.negate, BitVec.msb_xor]
  have : (0x80000000#32).msb = true := by decide
  rw [this]; simp

/-! ## The classes of values, by the lower bits (R60) -/

theorem F32.isNaN_iff (v : F32) : F32.isNaN v = true ↔ F32.infBits < F32.low v := by
  have := F32.low_lt v
  simp only [F32.isNaN, F32.exponent_eq, F32.fraction_eq, decide_eq_true_eq, F32.infBits]
  omega

theorem F32.isInf_iff (v : F32) : F32.isInf v = true ↔ F32.low v = F32.infBits := by
  have := F32.low_lt v
  simp only [F32.isInf, F32.exponent_eq, F32.fraction_eq, decide_eq_true_eq, F32.infBits]
  omega

theorem F32.isFinite_iff (v : F32) : F32.isFinite v = true ↔ F32.low v < F32.infBits := by
  have := F32.low_lt v
  simp only [F32.isFinite, F32.exponent_eq, decide_eq_true_eq, F32.infBits]
  omega

theorem F32.isZero_iff (v : F32) : F32.isZero v = true ↔ F32.low v = 0 := by
  simp only [F32.isZero, F32.exponent_eq, F32.fraction_eq, decide_eq_true_eq]
  omega

theorem F32.isNaN_of_isFinite {v : F32} (h : F32.isFinite v = true) : F32.isNaN v = false := by
  rw [F32.isFinite_iff] at h
  rw [← Bool.not_eq_true, F32.isNaN_iff]
  omega

theorem F32.isInf_of_isFinite {v : F32} (h : F32.isFinite v = true) : F32.isInf v = false := by
  rw [F32.isFinite_iff] at h
  rw [← Bool.not_eq_true, F32.isInf_iff]
  omega

theorem F32.isNaN_of_isInf {v : F32} (h : F32.isInf v = true) : F32.isNaN v = false := by
  rw [F32.isInf_iff] at h
  rw [← Bool.not_eq_true, F32.isNaN_iff]
  omega

/-- A value that is no NaN is finite or infinite. -/
theorem F32.isFinite_or_isInf {v : F32} (h : F32.isNaN v = false) :
    F32.isFinite v = true ∨ F32.isInf v = true := by
  rw [← Bool.not_eq_true, F32.isNaN_iff] at h
  rw [F32.isFinite_iff, F32.isInf_iff]
  omega

/-- Patterns with lower bits up to an infinity's are no NaN. -/
theorem F32.isNaN_ofSignBits (s : Bool) {b : Nat} (h : b ≤ F32.infBits) :
    F32.isNaN (F32.ofSignBits s b) = false := by
  rw [← Bool.not_eq_true, F32.isNaN_iff, F32.low_ofSignBits _ (by simp [F32.infBits] at h; omega)]
  omega

/-- A drawn NaN is a NaN (R65). -/
@[simp] theorem F32.isNaN_freeNaN (draw lane : Nat) : F32.isNaN (freeNaN draw lane) = true := by
  have hf := (Config.freeNaNFraction draw lane).isLt
  have he : F32.exponent (freeNaN draw lane) = 255 := by
    have : (freeNaN draw lane).extractLsb' 23 8 = 0xFF#8 := by
      apply BitVec.eq_of_getLsbD_eq
      intro i hi
      simp (disch := omega) only [freeNaN, BitVec.getLsbD_extractLsb', BitVec.getLsbD_append,
        if_neg, if_pos, hi, decide_true, Bool.true_and]
      exact congrArg (BitVec.getLsbD _) (by omega)
    rw [F32.exponent, this]; rfl
  have hfr : F32.fraction (freeNaN draw lane) = (Config.freeNaNFraction draw lane).val + 1 := by
    have : (freeNaN draw lane).extractLsb' 0 23 =
        BitVec.ofNat 23 ((Config.freeNaNFraction draw lane).val + 1) := by
      apply BitVec.eq_of_getLsbD_eq
      intro i hi
      simp (disch := omega) only [freeNaN, BitVec.getLsbD_extractLsb', BitVec.getLsbD_append,
        if_neg, if_pos, hi, decide_true, Bool.true_and]
      exact congrArg (BitVec.getLsbD _) (by omega)
    rw [F32.fraction, this, BitVec.toNat_ofNat, Nat.mod_eq_of_lt (by omega)]
  simp [F32.isNaN, he, hfr]

/-! ## Magnitudes -/

/-- The magnitude the lower bits `b` of a finite value stand for, in units of 2^-149. -/
def magnitudeOf (b : Nat) : Nat :=
  if b / 2 ^ 23 = 0 then b % 2 ^ 23 else (2 ^ 23 + b % 2 ^ 23) * 2 ^ (b / 2 ^ 23 - 1)

theorem F32.magnitude_eq (v : F32) : F32.magnitude v = magnitudeOf (F32.low v) := by
  rw [F32.magnitude, F32.exponent_eq, F32.fraction_eq, magnitudeOf]

theorem F32.exact_natAbs (v : F32) : (F32.exact v).natAbs = F32.magnitude v := by
  rw [F32.exact]; split <;> omega

/-- The lower bits of a significand `m` at the exponent step `e` stand for `m * 2^e`. -/
theorem magnitudeOf_step {e m : Nat} (hm : m ≤ 2 ^ 24) (he : 0 < e → 2 ^ 23 ≤ m) :
    magnitudeOf (e * 2 ^ 23 + m) = m * 2 ^ e := by
  rw [magnitudeOf]
  rcases Nat.lt_or_ge m (2 ^ 23) with h | h
  · have h0 : e = 0 := by by_contra hne; have := he (by omega); omega
    subst h0
    rw [if_pos (by omega)]
    omega
  · rcases Nat.lt_or_ge m (2 ^ 24) with h2 | h2
    · have hd : (e * 2 ^ 23 + m) / 2 ^ 23 = e + 1 := by omega
      rw [hd, if_neg (by omega)]
      congr 1
      omega
    · have hd : (e * 2 ^ 23 + m) / 2 ^ 23 = e + 2 := by omega
      have hm' : m = 2 ^ 23 * 2 := by omega
      rw [hd, if_neg (by omega), show (e * 2 ^ 23 + m) % 2 ^ 23 = 0 by omega, hm',
        show e + 2 - 1 = e + 1 by omega, Nat.pow_succ]
      ring

/-- Every finite magnitude is a significand below 2^24 at some exponent step. -/
theorem magnitudeOf_form {b : Nat} (_h : b < F32.infBits) :
    ∃ e m, b = e * 2 ^ 23 + m ∧ m < 2 ^ 24 ∧ (0 < e → 2 ^ 23 ≤ m) ∧ magnitudeOf b = m * 2 ^ e := by
  by_cases h0 : b / 2 ^ 23 = 0
  · refine ⟨0, b, by omega, by omega, by omega, ?_⟩
    rw [magnitudeOf, if_pos h0]; omega
  · refine ⟨b / 2 ^ 23 - 1, 2 ^ 23 + b % 2 ^ 23, by omega, by omega, by omega, ?_⟩
    rw [magnitudeOf, if_neg h0]

/-! ## Rounding (R61, R62) -/

/-- The remainder form of `roundTiesEven`: within half of `d`, and even when exactly half away. -/
theorem roundTiesEven_spec (n : Nat) {d : Nat} (hd : 0 < d) :
    2 * n ≤ (2 * roundTiesEven n d + 1) * d ∧ (2 * roundTiesEven n d) * d ≤ 2 * n + d ∧
      (2 * n = (2 * roundTiesEven n d + 1) * d ∨ (2 * roundTiesEven n d) * d = 2 * n + d →
        roundTiesEven n d % 2 = 0) := by
  have hdiv : d * (n / d) + n % d = n := Nat.div_add_mod n d
  have hlt : n % d < d := Nat.mod_lt n hd
  rw [roundTiesEven]
  generalize n / d = q at *
  generalize n % d = r at *
  have e1 : (2 * (q + 1) + 1) * d = 2 * (d * q) + 3 * d := by ring
  have e2 : (2 * (q + 1)) * d = 2 * (d * q) + 2 * d := by ring
  have e3 : (2 * q + 1) * d = 2 * (d * q) + d := by ring
  have e4 : (2 * q) * d = 2 * (d * q) := by ring
  split
  · rw [e1, e2]; omega
  · rw [e3, e4]; omega

/-- Rounding never passes an integer the value does not pass. -/
theorem le_roundTiesEven {n d j : Nat} (hd : 0 < d) (h : j * d ≤ n) : j ≤ roundTiesEven n d := by
  obtain ⟨h1, -, -⟩ := roundTiesEven_spec n hd
  by_contra hc
  have : (2 * roundTiesEven n d + 1) * d < 2 * (j * d) := by
    calc (2 * roundTiesEven n d + 1) * d < (2 * roundTiesEven n d + 2) * d :=
          Nat.mul_lt_mul_of_pos_right (by omega) hd
      _ ≤ (2 * j) * d := Nat.mul_le_mul_right d (by omega)
      _ = 2 * (j * d) := by ring
  omega

theorem roundTiesEven_le {n d j : Nat} (hd : 0 < d) (h : n ≤ j * d) : roundTiesEven n d ≤ j := by
  obtain ⟨-, h2, -⟩ := roundTiesEven_spec n hd
  by_contra hc
  have : 2 * (j * d) + d < (2 * roundTiesEven n d) * d := by
    calc 2 * (j * d) + d < (2 * j + 2) * d := by nlinarith
      _ ≤ (2 * roundTiesEven n d) * d := Nat.mul_le_mul_right d (by omega)
  omega

/-- A multiple is its own rounding. -/
theorem roundTiesEven_mul (j : Nat) {d : Nat} (hd : 0 < d) : roundTiesEven (j * d) d = j :=
  Nat.le_antisymm (roundTiesEven_le hd le_rfl) (le_roundTiesEven hd le_rfl)

theorem roundBits_le (k n : Nat) : roundBits k n ≤ F32.infBits := Nat.min_le_right _ _

theorem roundBits_lt (k n : Nat) : roundBits k n < 2 ^ 31 :=
  Nat.lt_of_le_of_lt (roundBits_le k n) (by decide)

@[simp] theorem roundBits_zero (k : Nat) : roundBits k 0 = 0 := by
  simp [roundBits, roundTiesEven]

end Sys2Proof.Machine
end

