-- ==== Sys2Proof/Laws/Round.lean ====
section
/-! SUPPORT. What `roundBits` gives: the nearest finite magnitude, ties to even, or the infinity
beyond the format (spec/40_pixel_write.md R61, R62). -/

namespace Sys2Proof.Machine

/-- The place `roundBits` cuts at. -/
def roundCut (k n : Nat) : Nat := max k (Nat.log2 n - 23)

theorem roundBits_eq (k n : Nat) : roundBits k n =
    min ((roundCut k n - k) * 2 ^ 23 + roundTiesEven n (2 ^ roundCut k n)) F32.infBits := rfl

/-- The cut keeps 24 bits; above the subnormal place it keeps no fewer. -/
theorem roundCut_spec (k n : Nat) : k ≤ roundCut k n ∧ n < 2 ^ (roundCut k n + 24) ∧
    (k < roundCut k n → 2 ^ (roundCut k n + 23) ≤ n) := by
  rw [roundCut]
  refine ⟨Nat.le_max_left _ _, ?_, fun hk => ?_⟩
  · exact Nat.lt_of_lt_of_le Nat.lt_log2_self (Nat.pow_le_pow_right (by decide) (by omega))
  · have hn : n ≠ 0 := by
      rintro rfl
      simp at hk
    exact Nat.le_trans (Nat.pow_le_pow_right (by decide) (by omega)) (Nat.log2_self_le hn)

/-- The significand at the cut has at most 24 bits and a carry. -/
theorem roundSignificand (k n : Nat) : roundTiesEven n (2 ^ roundCut k n) ≤ 2 ^ 24 ∧
    (k < roundCut k n → 2 ^ 23 ≤ roundTiesEven n (2 ^ roundCut k n)) := by
  obtain ⟨-, h2, h3⟩ := roundCut_spec k n
  refine ⟨roundTiesEven_le (Nat.two_pow_pos _) ?_, fun hk => le_roundTiesEven (Nat.two_pow_pos _) ?_⟩
  · rw [← Nat.pow_add, Nat.add_comm]; exact Nat.le_of_lt h2
  · rw [← Nat.pow_add, Nat.add_comm]; exact h3 hk

/-- Exactly the values from the overflow bound up are rounded to infinity. -/
theorem roundBits_inf_iff (k n : Nat) :
    roundBits k n = F32.infBits ↔ F32.overflowBound * 2 ^ k ≤ n := by
  obtain ⟨hk, hlt, hge⟩ := roundCut_spec k n
  obtain ⟨hm1, hm2⟩ := roundSignificand k n
  obtain ⟨e, he⟩ : ∃ e, roundCut k n = k + e := ⟨roundCut k n - k, by omega⟩
  rw [roundBits_eq]
  generalize hm : roundTiesEven n (2 ^ roundCut k n) = m at *
  have hb : F32.overflowBound * 2 ^ k = (2 ^ 25 - 1) * 2 ^ (k + 252) := by
    rw [F32.overflowBound, Nat.mul_assoc, ← Nat.pow_add, Nat.add_comm 252]
  rw [hb, he, show k + e - k = e by omega]
  rw [he] at hlt hge hm hm2
  have hinf : F32.infBits = 255 * 2 ^ 23 := by decide
  rcases Nat.lt_trichotomy e 253 with h | h | h
  · have h1 : n < 2 ^ 24 * 2 ^ (k + 252) := by
      rw [← Nat.pow_add]
      exact Nat.lt_of_lt_of_le hlt (Nat.pow_le_pow_right (by decide) (by omega))
    rw [hinf]
    clear hlt hge hb hm
    generalize 2 ^ (k + 252) = d at *
    omega
  · subst h
    have hp : 2 ^ (k + 253) = 2 * 2 ^ (k + 252) := by
      rw [show k + 253 = k + 252 + 1 by omega, Nat.pow_succ, Nat.mul_comm]
    obtain ⟨s1, s2, s3⟩ := roundTiesEven_spec n (d := 2 ^ (k + 253)) (Nat.two_pow_pos _)
    rw [hm, hp] at s1 s2 s3
    rw [hinf]
    have hd : 0 < 2 ^ (k + 252) := Nat.two_pow_pos _
    generalize 2 ^ (k + 252) = d at *
    constructor
    · intro h
      have : m = 2 ^ 24 := by omega
      subst this
      omega
    · intro h
      have : m = 2 ^ 24 := by
        by_contra hne
        rcases Nat.lt_or_ge m (2 ^ 24 - 1) with hlt' | hge'
        · have : (2 * m + 1) * (2 * d) ≤ (2 * (2 ^ 24 - 2) + 1) * (2 * d) :=
            Nat.mul_le_mul_right _ (by omega)
          omega
        · have : m = 2 ^ 24 - 1 := by omega
          subst this
          have := s3 (.inl (by omega))
          omega
      omega
  · have h1 : 2 ^ 25 * 2 ^ (k + 252) ≤ n := by
      rw [← Nat.pow_add]
      exact Nat.le_trans (Nat.pow_le_pow_right (by decide) (by omega)) (hge (by omega))
    have := hm2 (by omega)
    rw [hinf]
    clear hlt hge hb hm
    generalize 2 ^ (k + 252) = d at *
    omega

/-- Below the overflow bound the rounded bits stand for the significand at the cut. -/
theorem magnitudeOf_roundBits {k n : Nat} (h : n < F32.overflowBound * 2 ^ k) :
    roundBits k n % 2 = roundTiesEven n (2 ^ roundCut k n) % 2 ∧
      magnitudeOf (roundBits k n) * 2 ^ k = roundTiesEven n (2 ^ roundCut k n) * 2 ^ roundCut k n := by
  obtain ⟨hk, -, -⟩ := roundCut_spec k n
  obtain ⟨hm1, hm2⟩ := roundSignificand k n
  have hne : roundBits k n ≠ F32.infBits := fun hc => by
    have := (roundBits_inf_iff k n).1 hc
    omega
  have hr : roundBits k n =
      (roundCut k n - k) * 2 ^ 23 + roundTiesEven n (2 ^ roundCut k n) := by
    rw [roundBits_eq] at hne ⊢
    omega
  refine ⟨by omega, ?_⟩
  rw [hr, magnitudeOf_step hm1 fun he => hm2 (by omega), Nat.mul_assoc, ← Nat.pow_add,
    show roundCut k n - k + k = roundCut k n by omega]

/-- Below the overflow bound no finite magnitude is nearer than the rounded one, and where another
is as near, the rounded one is even. -/
theorem roundBits_nearest {k n : Nat} (h : n < F32.overflowBound * 2 ^ k) {b : Nat}
    (hb : b < F32.infBits) :
    ((n : Int) - (magnitudeOf (roundBits k n) * 2 ^ k : Nat)).natAbs ≤
        ((n : Int) - (magnitudeOf b * 2 ^ k : Nat)).natAbs ∧
      (((n : Int) - (magnitudeOf (roundBits k n) * 2 ^ k : Nat)).natAbs =
          ((n : Int) - (magnitudeOf b * 2 ^ k : Nat)).natAbs →
        magnitudeOf b ≠ magnitudeOf (roundBits k n) → roundBits k n % 2 = 0) := by
  obtain ⟨hpar, hmag⟩ := magnitudeOf_roundBits h
  obtain ⟨hk, hlt, hge⟩ := roundCut_spec k n
  obtain ⟨e', m', -, hm', -, hform⟩ := magnitudeOf_form hb
  have hpow : 0 < 2 ^ k := Nat.two_pow_pos k
  have hinj : magnitudeOf b * 2 ^ k = magnitudeOf (roundBits k n) * 2 ^ k →
      magnitudeOf b = magnitudeOf (roundBits k n) := Nat.eq_of_mul_eq_mul_right hpow
  rw [hmag] at hinj ⊢
  rw [hpar]
  obtain ⟨s1, s2, s3⟩ := roundTiesEven_spec n (d := 2 ^ roundCut k n) (Nat.two_pow_pos _)
  have hlow : 2 ^ 23 * 2 ^ roundCut k n ≤ n → 2 ^ 23 ≤ roundTiesEven n (2 ^ roundCut k n) :=
    le_roundTiesEven (Nat.two_pow_pos _)
  generalize roundTiesEven n (2 ^ roundCut k n) = m at *
  by_cases hcut : roundCut k n - k ≤ e'
  · -- a multiple of the last place kept
    obtain ⟨j, hj⟩ : ∃ j, magnitudeOf b * 2 ^ k = j * 2 ^ roundCut k n := by
      refine ⟨m' * 2 ^ (e' + k - roundCut k n), ?_⟩
      rw [hform, Nat.mul_assoc, Nat.mul_assoc, ← Nat.pow_add, ← Nat.pow_add]
      congr 2
      omega
    rw [hj] at hinj ⊢
    have hd : 0 < 2 ^ roundCut k n := Nat.two_pow_pos _
    generalize 2 ^ roundCut k n = d at *
    have e1 : (2 * m + 1) * d = 2 * (m * d) + d := by ring
    have e2 : 2 * m * d = 2 * (m * d) := by ring
    rw [e1] at s1 s3
    rw [e2] at s2 s3
    rcases Nat.lt_trichotomy j m with hjm | rfl | hjm
    · have : (j + 1) * d ≤ m * d := Nat.mul_le_mul_right d hjm
      have e3 : (j + 1) * d = j * d + d := by ring
      omega
    · exact ⟨le_rfl, fun _ hne => absurd (hinj rfl) hne⟩
    · have : (m + 1) * d ≤ j * d := Nat.mul_le_mul_right d hjm
      have e3 : (m + 1) * d = m * d + d := by ring
      omega
  · -- a value below the binade of `n`
    have hn := hge (by omega)
    rw [Nat.add_comm, Nat.pow_add] at hn
    have hm23 := hlow hn
    have hsmall : magnitudeOf b * 2 ^ k < 2 ^ 23 * 2 ^ roundCut k n := by
      calc magnitudeOf b * 2 ^ k = m' * 2 ^ (e' + k) := by
            rw [hform, Nat.mul_assoc, ← Nat.pow_add]
        _ < 2 ^ 24 * 2 ^ (e' + k) := Nat.mul_lt_mul_of_pos_right hm' (Nat.two_pow_pos _)
        _ = 2 ^ (24 + (e' + k)) := (Nat.pow_add ..).symm
        _ ≤ 2 ^ (23 + roundCut k n) := Nat.pow_le_pow_right (by decide) (by omega)
        _ = _ := Nat.pow_add ..
    have hmd : 2 ^ 23 * 2 ^ roundCut k n ≤ m * 2 ^ roundCut k n := Nat.mul_le_mul_right _ hm23
    generalize 2 ^ roundCut k n = d at *
    have e1 : (2 * m + 1) * d = 2 * (m * d) + d := by ring
    have e2 : 2 * m * d = 2 * (m * d) := by ring
    rw [e2] at s2
    -- the least value of the binade is at least as near as the rounded one is
    have key : m * d ≤ n ∨ n - 2 ^ 23 * d ≥ m * d - n := by
      rcases Nat.le_total (m * d) n with h' | h'
      · exact .inl h'
      · right
        rcases Nat.eq_or_lt_of_le hm23 with hE | hL
        · subst hE; omega
        · have : (2 ^ 23 + 1) * d ≤ m * d := Nat.mul_le_mul_right d hL
          have e3 : (2 ^ 23 + 1) * d = 2 ^ 23 * d + d := by ring
          omega
    omega

/-- A magnitude is its own rounding. -/
theorem roundBits_magnitudeOf {k b : Nat} (hb : b < F32.infBits) :
    roundBits k (magnitudeOf b * 2 ^ k) = b := by
  obtain ⟨e, m, hbe, hm, he, hform⟩ := magnitudeOf_form hb
  have hn : magnitudeOf b * 2 ^ k = m * 2 ^ (k + e) := by
    rw [hform, Nat.mul_assoc, ← Nat.pow_add, Nat.add_comm]
  have hcut : roundCut k (m * 2 ^ (k + e)) = k + e := by
    rw [roundCut]
    by_cases h0 : m = 0
    · subst h0
      have : e = 0 := by by_contra hne; have := he (by omega); omega
      subst this
      simp
    · have hup : Nat.log2 (m * 2 ^ (k + e)) < 24 + (k + e) :=
        (Nat.log2_lt (Nat.mul_ne_zero h0 (Nat.pos_iff_ne_zero.1 (Nat.two_pow_pos _)))).2 (by
          rw [Nat.pow_add 2 24]; exact Nat.mul_lt_mul_of_pos_right hm (Nat.two_pow_pos _))
      rcases Nat.eq_zero_or_pos e with rfl | hpos
      · omega
      · have hlo : 23 + (k + e) ≤ Nat.log2 (m * 2 ^ (k + e)) :=
          (Nat.le_log2 (Nat.mul_ne_zero h0 (Nat.pos_iff_ne_zero.1 (Nat.two_pow_pos _)))).2 (by
            rw [Nat.pow_add 2 23]; exact Nat.mul_le_mul_right _ (he hpos))
        omega
  rw [hn, roundBits_eq, hcut, roundTiesEven_mul _ (Nat.two_pow_pos _),
    show k + e - k = e by omega, ← hbe]
  omega

end Sys2Proof.Machine
end

