-- ==== Sys2Proof/Laws/Arith.lean ====
section
/-! SUPPORT. One spec lemma for each case of `fmul`, `fadd`, `fsub` and `fgt`
(spec/40_pixel_write.md R61 to R64), so that callers never unfold them. -/

namespace Sys2Proof.Machine

/-! ## Rounded values -/

theorem F32.exact_of_pos {v : F32} (h : F32.sign v = false) : F32.exact v = F32.magnitude v := by
  simp [F32.exact, h]

theorem F32.exact_of_neg {v : F32} (h : F32.sign v = true) : F32.exact v = -F32.magnitude v := by
  simp [F32.exact, h]

theorem F32.exact_ofSignBits (s : Bool) {b : Nat} (h : b < 2 ^ 31) :
    F32.exact (F32.ofSignBits s b) = if s then -(magnitudeOf b : Int) else magnitudeOf b := by
  rw [F32.exact, F32.sign_ofSignBits, F32.magnitude_eq, F32.low_ofSignBits _ h]

/-- A finite value's pattern is its sign and magnitude. -/
theorem F32.magnitude_eq_zero {v : F32} : F32.magnitude v = 0 ↔ F32.isZero v = true := by
  rw [F32.magnitude_eq, F32.isZero_iff, magnitudeOf]
  constructor
  · intro h
    split at h
    · omega
    · have := Nat.two_pow_pos (F32.low v / 2 ^ 23 - 1)
      have := Nat.mul_eq_zero.1 h
      omega
  · intro h; rw [h]; decide

/-- A rounded magnitude with the sign of the exact value is that value, rounded (R61, R62). -/
theorem F32.roundsTo_ofSignBits {k : Nat} {v : Int} {s : Bool} (hneg : v < 0 → s = true)
    (hpos : 0 < v → s = false) (h : v.natAbs < F32.overflowBound * 2 ^ k) :
    F32.RoundsTo k v (F32.ofSignBits s (roundBits k v.natAbs)) := by
  have hfin : roundBits k v.natAbs < F32.infBits :=
    Nat.lt_of_le_of_ne (roundBits_le _ _) fun hc => by
      have := (roundBits_inf_iff k v.natAbs).1 hc
      omega
  have hlt := roundBits_lt k v.natAbs
  refine ⟨?_, fun c hc => ?_⟩
  · rw [F32.isFinite_iff, F32.low_ofSignBits _ hlt]; exact hfin
  rw [F32.isFinite_iff] at hc
  obtain ⟨n1, n2⟩ := roundBits_nearest h hc
  obtain ⟨z1, z2⟩ := roundBits_nearest h (b := 0) (by decide)
  have h0 : magnitudeOf 0 = 0 := by decide
  rw [F32.exact_ofSignBits s hlt, F32.fraction_eq, F32.low_ofSignBits _ hlt,
    show ∀ x, x % 2 ^ 23 % 2 = x % 2 by omega, F32.exact, F32.magnitude_eq]
  rw [h0] at z1 z2
  have hv := Int.natAbs_eq v
  clear hfin hlt hc h
  generalize magnitudeOf (roundBits k v.natAbs) = mr at *
  generalize roundBits k v.natAbs = rb at *
  generalize magnitudeOf (F32.low c) = mc at *
  generalize v.natAbs = n at *
  push_cast at n1 n2 z1 z2
  have hp : (0 : Int) < 2 ^ k := by positivity
  have hmr : (0 : Int) ≤ mr * 2 ^ k := by positivity
  have hmc : (0 : Int) ≤ mc * 2 ^ k := by positivity
  have hmc0 : (mc : Int) * 2 ^ k = 0 → mc = 0 := fun h => by
    rcases Int.mul_eq_zero.1 h with h | h <;> omega
  have e1 : -(mr : Int) * 2 ^ k = -(mr * 2 ^ k) := Int.neg_mul ..
  have e2 : -(mc : Int) * 2 ^ k = -(mc * 2 ^ k) := Int.neg_mul ..
  rw [Int.zero_mul] at z1 z2
  have hC0 : (mc : Int) * 2 ^ k = 0 ↔ mc = 0 := by
    constructor
    · exact hmc0
    · rintro rfl; simp
  have hsgn : (s = true ∧ v ≤ 0) ∨ (s = false ∧ 0 ≤ v) := by
    cases s
    · exact .inr ⟨rfl, by by_contra hc; exact absurd (hneg (by omega)) (by decide)⟩
    · exact .inl ⟨rfl, by by_contra hc; exact absurd (hpos (by omega)) (by decide)⟩
  clear hneg hpos
  rcases hsgn with ⟨rfl, hsgn⟩ | ⟨rfl, hsgn⟩ <;> simp only [if_true, Bool.false_eq_true, if_false] <;>
    split <;> (try rw [e1]) <;> (try rw [e2]) <;>
    generalize (mr : Int) * 2 ^ k = R at * <;> generalize (mc : Int) * 2 ^ k = C at * <;>
    clear e1 e2 hp hmc0
  all_goals
    refine ⟨by omega, fun he hne => ?_⟩
    by_cases hC : C = 0
    · exact z2 (by omega) (by omega)
    · exact n2 (by omega) (by omega)

/-! ## The product (R61) -/

theorem fmul_nan {n a b : F32} (h : F32.isNaN a = true ∨ F32.isNaN b = true) :
    fmul n a b = n := by
  rcases h with h | h <;> simp [fmul, h]

theorem fmul_inf_zero {n a b : F32} (h : (F32.isInf a = true ∧ F32.isZero b = true) ∨
    (F32.isZero a = true ∧ F32.isInf b = true)) : fmul n a b = n := by
  rcases h with ⟨h1, h2⟩ | ⟨h1, h2⟩ <;> simp [fmul, h1, h2]

theorem fmul_inf {n a b : F32} (ha : F32.isNaN a = false) (hb : F32.isNaN b = false)
    (hi : F32.isInf a = true ∨ F32.isInf b = true) (hza : F32.isZero a = false)
    (hzb : F32.isZero b = false) :
    fmul n a b = F32.ofSignBits (F32.sign a ^^ F32.sign b) F32.infBits := by
  rcases hi with h | h <;> simp [fmul, ha, hb, h, hza, hzb]

theorem fmul_finite {n a b : F32} (ha : F32.isFinite a = true) (hb : F32.isFinite b = true) :
    fmul n a b = F32.ofSignBits (F32.sign a ^^ F32.sign b)
      (roundBits 149 (F32.magnitude a * F32.magnitude b)) := by
  simp [fmul, F32.isNaN_of_isFinite ha, F32.isNaN_of_isFinite hb, F32.isInf_of_isFinite ha,
    F32.isInf_of_isFinite hb]

/-- A product is the given NaN or no NaN (R65). -/
theorem fmul_cases (n a b : F32) : fmul n a b = n ∨ F32.isNaN (fmul n a b) = false := by
  simp only [fmul]
  split_ifs
  · exact .inl rfl
  · exact .inl rfl
  · exact .inr (F32.isNaN_ofSignBits _ le_rfl)
  · exact .inr (F32.isNaN_ofSignBits _ (roundBits_le _ _))

/-! ## The sum and the difference (R62, R63) -/

theorem fadd_nan {n a b : F32} (h : F32.isNaN a = true ∨ F32.isNaN b = true) :
    fadd n a b = n := by
  rcases h with h | h <;> simp [fadd, h]

theorem fadd_inf_inf {n a b : F32} (ha : F32.isInf a = true) (hb : F32.isInf b = true)
    (hs : F32.sign a ≠ F32.sign b) : fadd n a b = n := by
  have : (F32.sign a != F32.sign b) = true := by simpa using hs
  simp [fadd, ha, hb, this]

theorem fadd_inf_left {n a b : F32} (ha : F32.isInf a = true) (hb : F32.isNaN b = false)
    (h : F32.isInf b = true → F32.sign a = F32.sign b) : fadd n a b = a := by
  have hn := F32.isNaN_of_isInf ha
  cases hi : F32.isInf b with
  | true => simp [fadd, ha, hb, hn, hi, h hi]
  | false => simp [fadd, ha, hb, hn, hi]

theorem fadd_inf_right {n a b : F32} (ha : F32.isFinite a = true) (hb : F32.isInf b = true) :
    fadd n a b = b := by
  simp [fadd, F32.isNaN_of_isFinite ha, F32.isNaN_of_isInf hb, F32.isInf_of_isFinite ha, hb]

theorem fadd_finite {n a b : F32} (ha : F32.isFinite a = true) (hb : F32.isFinite b = true) :
    fadd n a b = if F32.exact a + F32.exact b = 0 then
      F32.ofSignBits (F32.sign a && F32.sign b) 0
    else F32.ofSignBits (decide (F32.exact a + F32.exact b < 0))
      (roundBits 0 (F32.exact a + F32.exact b).natAbs) := by
  simp [fadd, F32.isNaN_of_isFinite ha, F32.isNaN_of_isFinite hb, F32.isInf_of_isFinite ha,
    F32.isInf_of_isFinite hb]

/-- A sum is the given NaN or no NaN (R65). -/
theorem fadd_cases (n a b : F32) : fadd n a b = n ∨ F32.isNaN (fadd n a b) = false := by
  simp only [fadd]
  split_ifs with h1 h2 h3 h4 h5
  · exact .inl rfl
  · exact .inl rfl
  · exact .inr (by simp_all)
  · exact .inr (by simp_all)
  · exact .inr (F32.isNaN_ofSignBits _ (by decide))
  · exact .inr (F32.isNaN_ofSignBits _ (roundBits_le _ _))

/-! ## The order (R64) -/

/-- The order of the lower bits is the order of the magnitudes they stand for. -/
theorem magnitudeOf_lt {b c : Nat} (hc : c < F32.infBits) (h : b < c) :
    magnitudeOf b < magnitudeOf c := by
  obtain ⟨e, m, hb, hm, he, hfb⟩ := magnitudeOf_form (b := b) (by omega)
  obtain ⟨e', m', hc', hm', he', hfc⟩ := magnitudeOf_form hc
  rw [hfb, hfc]
  rcases Nat.lt_trichotomy e e' with hlt | rfl | hgt
  · calc m * 2 ^ e < 2 ^ 24 * 2 ^ e := Nat.mul_lt_mul_of_pos_right hm (Nat.two_pow_pos _)
      _ = 2 ^ 23 * 2 ^ (e + 1) := by rw [Nat.pow_succ]; ring
      _ ≤ m' * 2 ^ e' := Nat.mul_le_mul (he' (by omega)) (Nat.pow_le_pow_right (by decide) hlt)
  · exact Nat.mul_lt_mul_of_pos_right (by omega) (Nat.two_pow_pos _)
  · exfalso
    have := he (by omega)
    omega

theorem F32.order_eq (v : F32) :
    F32.order v = if F32.sign v then -(F32.low v : Int) else F32.low v := rfl

end Sys2Proof.Machine
end

