-- ==== Sys2Proof/Laws/Decode.lean ====
section
/-! SUPPORT. The fields of an assembled command word (spec/30_encoding.md R42, R46, R47). -/

namespace Sys2Proof

section
variable (op : BitVec 4) (x y : BitVec 32) (c : Pixel)

@[simp] theorem assembleWord_op : (assembleWord op x y c).op = op := by
  apply BitVec.eq_of_getLsbD_eq
  intro i hi
  simp (disch := omega) only [CmdWord.op, assembleWord, BitVec.getLsbD_extractLsb',
    BitVec.getLsbD_append, if_neg, if_pos, hi, decide_true, Bool.true_and]
  exact congrArg (BitVec.getLsbD _) (by omega)

@[simp] theorem assembleWord_z0 : (assembleWord op x y c).z0 = 0 := by
  apply BitVec.eq_of_getLsbD_eq
  intro i hi
  simp (disch := omega) only [CmdWord.z0, assembleWord, BitVec.getLsbD_extractLsb',
    BitVec.getLsbD_append, if_neg, if_pos, hi, decide_true, Bool.true_and]
  simp

@[simp] theorem assembleWord_z1 : (assembleWord op x y c).z1 = 0 := by
  apply BitVec.eq_of_getLsbD_eq
  intro i hi
  simp (disch := omega) only [CmdWord.z1, assembleWord, BitVec.getLsbD_extractLsb',
    BitVec.getLsbD_append, if_neg, if_pos, hi, decide_true, Bool.true_and]
  simp

/-- The `x` field of an assembled word, as bits. -/
@[simp] theorem assembleWord_xField : (assembleWord op x y c).extractLsb' 32 32 = x := by
  apply BitVec.eq_of_getLsbD_eq
  intro i hi
  simp (disch := omega) only [assembleWord, BitVec.getLsbD_extractLsb',
    BitVec.getLsbD_append, if_neg, if_pos, hi, decide_true, Bool.true_and]
  exact congrArg (BitVec.getLsbD _) (by omega)

/-- The `y` field of an assembled word, as bits. -/
@[simp] theorem assembleWord_yField : (assembleWord op x y c).extractLsb' 64 32 = y := by
  apply BitVec.eq_of_getLsbD_eq
  intro i hi
  simp (disch := omega) only [assembleWord, BitVec.getLsbD_extractLsb',
    BitVec.getLsbD_append, if_neg, if_pos, hi, decide_true, Bool.true_and]
  exact congrArg (BitVec.getLsbD _) (by omega)

@[simp] theorem assembleWord_x : (assembleWord op x y c).x = x.toInt := by
  rw [CmdWord.x, assembleWord_xField]

@[simp] theorem assembleWord_y : (assembleWord op x y c).y = y.toInt := by
  rw [CmdWord.y, assembleWord_yField]

@[simp] theorem assembleWord_colour : (assembleWord op x y c).colour = c := by
  obtain ⟨r, g, b, a⟩ := c
  simp only [CmdWord.colour, Pixel.mk.injEq]
  refine ⟨?_, ?_, ?_, ?_⟩ <;>
  · apply BitVec.eq_of_getLsbD_eq
    intro i hi
    simp (disch := omega) only [assembleWord, BitVec.getLsbD_extractLsb',
      BitVec.getLsbD_append, if_neg, if_pos, hi, decide_true, Bool.true_and]
    exact congrArg (BitVec.getLsbD _) (by omega)

end

/-- A coordinate that is expressible comes back from its field (R46). -/
theorem coordField_toInt {v : Int} (h : coordInRange v = true) : (coordField v).toInt = v := by
  simp only [coordInRange, decide_eq_true_eq] at h
  rw [coordField, BitVec.toInt_ofInt]
  exact Int.bmod_eq_of_le (by omega) (by omega)

/-- What a coordinate field holds is expressible (R46). -/
theorem coordInRange_toInt (v : BitVec 32) : coordInRange v.toInt = true := by
  have h1 := BitVec.toInt_lt (x := v)
  have h2 := BitVec.le_toInt (x := v)
  simp only [coordInRange, decide_eq_true_eq]
  omega

theorem coordsInRange_x {x y : Int} (h : coordsInRange x y = true) : coordInRange x = true := by
  simp only [coordsInRange, Bool.and_eq_true] at h
  exact h.1

theorem coordsInRange_y {x y : Int} (h : coordsInRange x y = true) : coordInRange y = true := by
  simp only [coordsInRange, Bool.and_eq_true] at h
  exact h.2

/-- A word with its must-be-zero fields zero is decoded by its opcode (R44). -/
theorem decode_of_zeros {w : CmdWord} (h0 : w.z0 = 0) (h1 : w.z1 = 0) :
    decode w = decodeOp w.op w.x w.y w.colour := by
  rw [decode, if_neg (not_not.2 h0), if_neg (not_not.2 h1)]

/-- What an assembled word is decoded as. -/
theorem decode_assembleWord (op : BitVec 4) (x y : BitVec 32) (c : Pixel) :
    decode (assembleWord op x y c) = decodeOp op x.toInt y.toInt c := by
  rw [decode_of_zeros (assembleWord_z0 ..) (assembleWord_z1 ..)]
  simp

end Sys2Proof
end

