-- ==== Sys2Proof/Laws/Memory.lean ====
section
/-! SUPPORT. The laws of the store: a read after a write gives the value written, a write leaves
every other place alone, every operation keeps the canonical form, and equal reads mean equal
stores (spec/20_memory.md R28, R29, R31). -/

namespace Sys2Proof

/-! ## A pixel, its packed form and its bytes (R31) -/

/-- The four channels of a packed pixel (R31). -/
@[simp] theorem Pixel.unpack_pack (p : Pixel) : Pixel.unpack p.pack = p := by
  obtain ⟨r, g, b, a⟩ := p
  simp only [Pixel.unpack, Pixel.pack, Pixel.mk.injEq]
  refine ⟨?_, ?_, ?_, ?_⟩ <;>
  · apply BitVec.eq_of_getLsbD_eq
    intro i hi
    simp (disch := omega) only [BitVec.getLsbD_extractLsb', BitVec.getLsbD_append, if_neg, if_pos,
      hi, decide_true, Bool.true_and]
    congr 1
    omega

/-- Four neighbouring bytes are a channel. -/
theorem channel_of_extracts {n : Nat} (v : BitVec n) (k : Nat) :
    v.extractLsb' (k + 24) 8 ++ v.extractLsb' (k + 16) 8 ++ v.extractLsb' (k + 8) 8 ++
      v.extractLsb' k 8 = v.extractLsb' k 32 := by
  rw [BitVec.extractLsb'_append_extractLsb'_eq_extractLsb' (by omega),
    BitVec.extractLsb'_append_extractLsb'_eq_extractLsb' (by omega),
    BitVec.extractLsb'_append_extractLsb'_eq_extractLsb' (by omega)]

/-- The bytes of a pixel give the pixel back. -/
@[simp] theorem Pixel.ofBytes_byte (p : Pixel) : Pixel.ofBytes p.byte = p := by
  conv => rhs; rw [← Pixel.unpack_pack p]
  simp only [Pixel.ofBytes, channelOfBytes, Pixel.byte, Pixel.unpack, Pixel.mk.injEq]
  exact ⟨channel_of_extracts p.pack 0, channel_of_extracts p.pack 32,
    channel_of_extracts p.pack 64, channel_of_extracts p.pack 96⟩

/-- A pixel is determined by its sixteen bytes. -/
theorem Pixel.ofBytes_congr {f g : Nat → Byte} (h : ∀ k < 16, f k = g k) :
    Pixel.ofBytes f = Pixel.ofBytes g := by
  simp [Pixel.ofBytes, channelOfBytes, h]

namespace Machine

/-! ## One byte -/

@[simp] theorem Memory.read_nil (a : Nat) : Memory.read [] a = Memory.unlisted a := rfl

@[simp] theorem Memory.read_cons (k : Nat) (v : Byte) (m : List Host.Cell) (a : Nat) :
    Memory.read ((k, v) :: m) a = if k = a then v else Memory.read m a := rfl

/-- An address that no entry has reads as unlisted. -/
theorem Memory.read_of_not_mem {m : List Host.Cell} {a : Nat} (h : ∀ c ∈ m, c.1 ≠ a) :
    Memory.read m a = Memory.unlisted a := by
  induction m with
  | nil => rfl
  | cons c m ih =>
    rw [Memory.read_cons, if_neg (h c (by simp)), ih fun d hd => h d (by simp [hd])]

/-- An entry of a canonical store is what its address reads as. -/
theorem Memory.read_of_mem {m : List Host.Cell} (hm : Memory.wf m) {c : Host.Cell} (hc : c ∈ m) :
    Memory.read m c.1 = c.2 := by
  induction m with
  | nil => simp at hc
  | cons d m ih =>
    obtain ⟨hs, hv⟩ := hm
    rw [List.pairwise_cons] at hs
    rw [Memory.read_cons]
    rcases List.mem_cons.1 hc with rfl | hc
    · simp
    · rw [if_neg (Nat.ne_of_lt (hs.1 c hc)), ih ⟨hs.2, fun e he => hv e (by simp [he])⟩ hc]

theorem Memory.wf_tail {c : Host.Cell} {m : List Host.Cell} (h : Memory.wf (c :: m)) :
    Memory.wf m :=
  ⟨(List.pairwise_cons.1 h.1).2, fun d hd => h.2 d (by simp [hd])⟩

/-- A write leaves every other byte alone. -/
theorem Memory.read_write_other (m : List Host.Cell) {a c : Nat} (b : Byte) (h : c ≠ a) :
    Memory.read (Memory.write m a b) c = Memory.read m c := by
  induction m with
  | nil => simp only [Memory.write]; split <;> simp [Ne.symm h]
  | cons d m ih =>
    obtain ⟨k, v⟩ := d
    simp only [Memory.write]
    split_ifs <;> simp_all [Ne.symm h]

/-- A read after a write to the same byte gives the byte written. -/
theorem Memory.read_write_same {m : List Host.Cell} (hm : Memory.wf m) (a : Nat) (b : Byte) :
    Memory.read (Memory.write m a b) a = b := by
  induction m with
  | nil => simp only [Memory.write]; split <;> simp_all
  | cons d m ih =>
    obtain ⟨k, v⟩ := d
    have above : ∀ c ∈ m, k < c.1 := fun c hc => (List.pairwise_cons.1 hm.1).1 c hc
    simp only [Memory.write]
    split_ifs with hlt hb heq
    · rw [Memory.read_cons, if_neg (by omega), ih (Memory.wf_tail hm)]
    · rw [Memory.read_of_not_mem fun c hc => by have := above c hc; omega, hb]
    · rw [Memory.read_cons, if_neg heq,
        Memory.read_of_not_mem fun c hc => by have := above c hc; omega, hb]
    · simp
    · simp

/-- The entries of a written store are old ones or the new one. -/
theorem Memory.mem_write {m : List Host.Cell} {a : Nat} {b : Byte} {c : Host.Cell}
    (h : c ∈ Memory.write m a b) : c ∈ m ∨ (c = (a, b) ∧ b ≠ Memory.unlisted a) := by
  induction m with
  | nil => simp only [Memory.write] at h; split at h <;> simp_all
  | cons d m ih =>
    obtain ⟨k, v⟩ := d
    simp only [Memory.write] at h
    split_ifs at h <;> simp_all <;> tauto

/-- A write keeps the canonical form. -/
theorem Memory.wf_write {m : List Host.Cell} (hm : Memory.wf m) (a : Nat) (b : Byte) :
    Memory.wf (Memory.write m a b) := by
  refine ⟨?_, fun c hc => ?_⟩
  · induction m with
    | nil => simp only [Memory.write]; split <;> simp
    | cons d m ih =>
      obtain ⟨k, v⟩ := d
      have hs := List.pairwise_cons.1 hm.1
      simp only [Memory.write]
      split_ifs with hlt hb heq heq
      · refine List.pairwise_cons.2 ⟨fun c hc => ?_, ih (Memory.wf_tail hm)⟩
        rcases Memory.mem_write hc with hc | ⟨rfl, -⟩
        · exact hs.1 c hc
        · exact hlt
      · exact hs.2
      · exact hm.1
      · exact List.pairwise_cons.2 ⟨fun c hc => heq ▸ hs.1 c hc, hs.2⟩
      · refine List.pairwise_cons.2 ⟨fun c hc => ?_, hm.1⟩
        rcases List.mem_cons.1 hc with rfl | hc
        · show a < k; omega
        · have : k < c.1 := hs.1 c hc
          show a < c.1; omega
  · rcases Memory.mem_write hc with hc | ⟨rfl, hb⟩
    · exact hm.2 c hc
    · exact hb

/-! ## Runs of bytes -/

/-- What a run of written bytes reads as, inside it and outside it. -/
theorem Memory.read_writeRun (base : Nat) (f : Nat → Byte) (n : Nat) {m : List Host.Cell}
    (hm : Memory.wf m) (a : Nat) :
    Memory.read (Memory.writeRun base f n m) a =
      if base ≤ a ∧ a < base + n then f (a - base) else Memory.read m a := by
  induction n generalizing m with
  | zero => simp [Memory.writeRun]
  | succ n ih =>
    rw [Memory.writeRun, ih (Memory.wf_write hm _ _)]
    by_cases ha : a = base + n
    · subst ha
      rw [if_neg (by omega), if_pos (by omega), Memory.read_write_same hm]
      congr 1; omega
    · rw [Memory.read_write_other _ _ ha]
      split_ifs <;> first | rfl | omega

/-- Bytes outside a run are left alone, whatever the store's form. -/
theorem Memory.read_writeRun_outside (base : Nat) (f : Nat → Byte) (n : Nat) (m : List Host.Cell)
    {a : Nat} (ha : a < base ∨ base + n ≤ a) :
    Memory.read (Memory.writeRun base f n m) a = Memory.read m a := by
  induction n generalizing m with
  | zero => rfl
  | succ n ih => rw [Memory.writeRun, ih _ (by omega), Memory.read_write_other _ _ (by omega)]

theorem Memory.wf_writeRun (base : Nat) (f : Nat → Byte) (n : Nat) {m : List Host.Cell}
    (hm : Memory.wf m) : Memory.wf (Memory.writeRun base f n m) := by
  induction n generalizing m with
  | zero => exact hm
  | succ n ih => exact ih (Memory.wf_write hm _ _)

theorem Memory.mem_writeRun {base : Nat} {f : Nat → Byte} {n : Nat} {m : List Host.Cell}
    {c : Host.Cell} (h : c ∈ Memory.writeRun base f n m) :
    c ∈ m ∨ (base ≤ c.1 ∧ c.1 < base + n) := by
  induction n generalizing m with
  | zero => exact .inl h
  | succ n ih =>
    rcases ih h with h | ⟨h1, h2⟩
    · rcases Memory.mem_write h with h | ⟨rfl, -⟩
      · exact .inl h
      · exact .inr ⟨by simp, by simp⟩
    · exact .inr ⟨h1, by omega⟩

/-! ## Whole pixels (R28, R29) -/

/-- What every byte reads as after a pixel write. -/
theorem Memory.read_writePixel {m : List Host.Cell} (hm : Memory.wf m) (idx : Nat) (p : Pixel)
    (a : Nat) : Memory.read (Memory.writePixel m idx p) a =
      if a / 16 = idx then p.byte (a % 16) else Memory.read m a := by
  rw [Memory.writePixel, Memory.read_writeRun _ _ _ hm]
  by_cases h : a / 16 = idx
  · rw [if_pos (by omega), if_pos h]; congr 1; omega
  · rw [if_neg (by omega), if_neg h]

/-- A byte of another pixel is left alone, whatever the store's form. -/
theorem Memory.read_writePixel_other (m : List Host.Cell) {idx a : Nat} (p : Pixel)
    (h : a / 16 ≠ idx) : Memory.read (Memory.writePixel m idx p) a = Memory.read m a :=
  Memory.read_writeRun_outside _ _ _ _ (by omega)

/-- A pixel is determined by its bytes. -/
theorem Memory.readPixel_eq_of_read {m : List Host.Cell} {idx : Nat} {p : Pixel}
    (h : ∀ k < 16, Memory.read m (16 * idx + k) = p.byte k) : Memory.readPixel m idx = p := by
  rw [Memory.readPixel, Pixel.ofBytes_congr h, Pixel.ofBytes_byte]

/-- Stores that read the same on a pixel's bytes hold the same pixel there. -/
theorem Memory.readPixel_congr {m m' : List Host.Cell} {idx : Nat}
    (h : ∀ a, a / 16 = idx → Memory.read m a = Memory.read m' a) :
    Memory.readPixel m idx = Memory.readPixel m' idx :=
  Pixel.ofBytes_congr fun k hk => h _ (by omega)

/-- A read after a write to the same index gives the pixel written (R28, R29). -/
theorem Memory.readPixel_writePixel_same {m : List Host.Cell} (hm : Memory.wf m) (idx : Nat)
    (p : Pixel) : Memory.readPixel (Memory.writePixel m idx p) idx = p :=
  Memory.readPixel_eq_of_read fun k hk => by
    rw [Memory.read_writePixel hm, if_pos (by omega)]; congr 1; omega

/-- A write changes no other index (R29). -/
theorem Memory.readPixel_writePixel_other (m : List Host.Cell) {idx j : Nat} (p : Pixel)
    (h : j ≠ idx) : Memory.readPixel (Memory.writePixel m idx p) j = Memory.readPixel m j :=
  Memory.readPixel_congr fun _ ha => Memory.read_writePixel_other _ _ (by omega)

theorem Memory.wf_writePixel {m : List Host.Cell} (hm : Memory.wf m) (idx : Nat) (p : Pixel) :
    Memory.wf (Memory.writePixel m idx p) := Memory.wf_writeRun _ _ _ hm

theorem Memory.mem_writePixel {m : List Host.Cell} {idx : Nat} {p : Pixel} {c : Host.Cell}
    (h : c ∈ Memory.writePixel m idx p) : c ∈ m ∨ c.1 / 16 = idx := by
  rcases Memory.mem_writeRun h with h | ⟨h1, h2⟩
  · exact .inl h
  · exact .inr (by omega)

/-! ## The whole store (R91) -/

/-- What every byte reads as after a fill of `n` pixels. -/
theorem Memory.read_fill (p : Pixel) (n : Nat) {m : List Host.Cell} (hm : Memory.wf m) (a : Nat) :
    Memory.read (Memory.fill p n m) a = if a / 16 < n then p.byte (a % 16) else Memory.read m a := by
  induction n generalizing m with
  | zero => rfl
  | succ n ih =>
    rw [Memory.fill, ih (Memory.wf_writePixel hm _ _), Memory.read_writePixel hm]
    split_ifs <;> first | rfl | omega

/-- A byte beyond the filled pixels is left alone, whatever the store's form. -/
theorem Memory.read_fill_outside (p : Pixel) (n : Nat) (m : List Host.Cell) {a : Nat}
    (h : n ≤ a / 16) : Memory.read (Memory.fill p n m) a = Memory.read m a := by
  induction n generalizing m with
  | zero => rfl
  | succ n ih => rw [Memory.fill, ih _ (by omega), Memory.read_writePixel_other _ _ (by omega)]

/-- Every filled pixel holds the fill value (R91). -/
theorem Memory.readPixel_fill (p : Pixel) {n : Nat} {m : List Host.Cell} (hm : Memory.wf m)
    {idx : Nat} (h : idx < n) : Memory.readPixel (Memory.fill p n m) idx = p :=
  Memory.readPixel_eq_of_read fun k hk => by
    rw [Memory.read_fill _ _ hm, if_pos (by omega)]; congr 1; omega

theorem Memory.wf_fill (p : Pixel) (n : Nat) {m : List Host.Cell} (hm : Memory.wf m) :
    Memory.wf (Memory.fill p n m) := by
  induction n generalizing m with
  | zero => exact hm
  | succ n ih => exact ih (Memory.wf_writePixel hm _ _)

theorem Memory.mem_fill {p : Pixel} {n : Nat} {m : List Host.Cell} {c : Host.Cell}
    (h : c ∈ Memory.fill p n m) : c ∈ m ∨ c.1 / 16 < n := by
  induction n generalizing m with
  | zero => exact .inl h
  | succ n ih =>
    rcases ih h with h | h
    · rcases Memory.mem_writePixel h with h | h
      · exact .inl h
      · exact .inr (by omega)
    · exact .inr (by omega)

/-- The store nothing has been written to. -/
theorem Memory.wf_nil : Memory.wf [] := by simp [Memory.wf]

/-- A store nothing has been written to holds `INIT_PIXEL` everywhere (R23, R28). -/
theorem Memory.readPixel_nil (idx : Nat) : Memory.readPixel [] idx = Config.initPixel :=
  Memory.readPixel_eq_of_read fun k hk => by
    rw [Memory.read_nil, Memory.unlisted]; congr 1; omega

/-! ## Equal reads, equal stores -/

/-- Canonical stores that read the same at every address are the same list. -/
theorem Memory.ext_of_read {m m' : List Host.Cell} (hm : Memory.wf m) (hm' : Memory.wf m')
    (h : ∀ a, Memory.read m a = Memory.read m' a) : m = m' := by
  have sub : ∀ {m m' : List Host.Cell}, Memory.wf m → Memory.wf m' →
      (∀ a, Memory.read m a = Memory.read m' a) → ∀ c ∈ m, c ∈ m' := by
    intro m m' hm hm' h c hc
    have hr : Memory.read m' c.1 = c.2 := by rw [← h, Memory.read_of_mem hm hc]
    by_contra hn
    have : ∃ d ∈ m', d.1 = c.1 := by
      by_contra hno
      push Not at hno
      exact hm.2 c hc (by rw [← hr, Memory.read_of_not_mem hno])
    obtain ⟨d, hd, hdc⟩ := this
    have hd2 := Memory.read_of_mem hm' hd
    rw [hdc, hr] at hd2
    exact hn (by rwa [show c = d from Prod.ext hdc.symm hd2])
  have nodup : ∀ {m : List Host.Cell}, Memory.wf m → m.Nodup := fun hm =>
    hm.1.imp fun hlt heq => by simp [heq] at hlt
  exact List.Perm.eq_of_pairwise (le := fun c d => c.1 < d.1)
    (fun c d _ _ h1 h2 => absurd (Nat.lt_trans h1 h2) (Nat.lt_irrefl _)) hm.1 hm'.1
    ((List.perm_ext_iff_of_nodup (nodup hm) (nodup hm')).2 fun c =>
      ⟨sub hm hm' h c, sub hm' hm (fun a => (h a).symm) c⟩)

/-- Writes to two different pixels give the same store in either order. -/
theorem Memory.writePixel_comm {m : List Host.Cell} (hm : Memory.wf m) {i j : Nat} (p q : Pixel)
    (h : i ≠ j) : Memory.writePixel (Memory.writePixel m i p) j q =
      Memory.writePixel (Memory.writePixel m j q) i p := by
  have hi := Memory.wf_writePixel hm i p
  have hj := Memory.wf_writePixel hm j q
  apply Memory.ext_of_read (Memory.wf_writePixel hi j q) (Memory.wf_writePixel hj i p)
  intro a
  rw [Memory.read_writePixel hi j q a, Memory.read_writePixel hj i p a,
    Memory.read_writePixel hm i p a, Memory.read_writePixel hm j q a]
  by_cases h1 : a / 16 = j
  · rw [if_pos h1, if_neg (by omega), if_pos h1]
  · rw [if_neg h1, if_neg h1]

/-- Of two writes to one pixel the later one is what is left. -/
theorem Memory.writePixel_same {m : List Host.Cell} (hm : Memory.wf m) (i : Nat) (p q : Pixel) :
    Memory.writePixel (Memory.writePixel m i p) i q = Memory.writePixel m i q := by
  have hi := Memory.wf_writePixel hm i p
  apply Memory.ext_of_read (Memory.wf_writePixel hi i q) (Memory.wf_writePixel hm i q)
  intro a
  rw [Memory.read_writePixel hi i q a, Memory.read_writePixel hm i p a,
    Memory.read_writePixel hm i q a]
  by_cases h1 : a / 16 = i
  · rw [if_pos h1, if_pos h1]
  · rw [if_neg h1, if_neg h1, if_neg h1]

end Machine

end Sys2Proof
end

