-- ==== Sys2Proof/Laws/State.lean ====
section
/-! SUPPORT. What each named update of a State does to each field: one lemma per field per update,
so that no later proof unfolds a record update. -/

namespace Sys2Proof.Machine

variable (s : State)

/-! `memWrite` -/

@[simp] theorem State.memWrite_width (idx : Nat) (p : Pixel) :
    (s.memWrite idx p).width = s.width := rfl
@[simp] theorem State.memWrite_height (idx : Nat) (p : Pixel) :
    (s.memWrite idx p).height = s.height := rfl
@[simp] theorem State.memWrite_length (idx : Nat) (p : Pixel) :
    (s.memWrite idx p).length = s.length := rfl
@[simp] theorem State.memWrite_opacity (idx : Nat) (p : Pixel) :
    (s.memWrite idx p).opacity = s.opacity := rfl
@[simp] theorem State.memWrite_store (idx : Nat) (p : Pixel) :
    (s.memWrite idx p).store = Memory.writePixel s.store idx p := rfl
@[simp] theorem State.memWrite_rsp (idx : Nat) (p : Pixel) :
    (s.memWrite idx p).rsp = s.rsp := rfl
@[simp] theorem State.memWrite_inputs (idx : Nat) (p : Pixel) :
    (s.memWrite idx p).inputs = s.inputs := rfl
@[simp] theorem State.memWrite_draws (idx : Nat) (p : Pixel) :
    (s.memWrite idx p).draws = s.draws := rfl

/-! `fillStore` -/

@[simp] theorem State.fillStore_width (p : Pixel) : (s.fillStore p).width = s.width := rfl
@[simp] theorem State.fillStore_height (p : Pixel) : (s.fillStore p).height = s.height := rfl
@[simp] theorem State.fillStore_length (p : Pixel) : (s.fillStore p).length = s.length := rfl
@[simp] theorem State.fillStore_opacity (p : Pixel) : (s.fillStore p).opacity = s.opacity := rfl
@[simp] theorem State.fillStore_store (p : Pixel) :
    (s.fillStore p).store = Memory.fill p s.length s.store := rfl
@[simp] theorem State.fillStore_rsp (p : Pixel) : (s.fillStore p).rsp = s.rsp := rfl
@[simp] theorem State.fillStore_inputs (p : Pixel) : (s.fillStore p).inputs = s.inputs := rfl
@[simp] theorem State.fillStore_draws (p : Pixel) : (s.fillStore p).draws = s.draws := rfl

/-! `setOpacity` -/

@[simp] theorem State.setOpacity_width (v : F32) : (s.setOpacity v).width = s.width := rfl
@[simp] theorem State.setOpacity_height (v : F32) : (s.setOpacity v).height = s.height := rfl
@[simp] theorem State.setOpacity_length (v : F32) : (s.setOpacity v).length = s.length := rfl
@[simp] theorem State.setOpacity_opacity (v : F32) : (s.setOpacity v).opacity = v := rfl
@[simp] theorem State.setOpacity_store (v : F32) : (s.setOpacity v).store = s.store := rfl
@[simp] theorem State.setOpacity_rsp (v : F32) : (s.setOpacity v).rsp = s.rsp := rfl
@[simp] theorem State.setOpacity_inputs (v : F32) : (s.setOpacity v).inputs = s.inputs := rfl
@[simp] theorem State.setOpacity_draws (v : F32) : (s.setOpacity v).draws = s.draws := rfl

/-! `respond` -/

@[simp] theorem State.respond_width (p : Pixel) : (s.respond p).width = s.width := rfl
@[simp] theorem State.respond_height (p : Pixel) : (s.respond p).height = s.height := rfl
@[simp] theorem State.respond_length (p : Pixel) : (s.respond p).length = s.length := rfl
@[simp] theorem State.respond_opacity (p : Pixel) : (s.respond p).opacity = s.opacity := rfl
@[simp] theorem State.respond_store (p : Pixel) : (s.respond p).store = s.store := rfl
@[simp] theorem State.respond_rsp (p : Pixel) : (s.respond p).rsp = some p := rfl
@[simp] theorem State.respond_inputs (p : Pixel) : (s.respond p).inputs = s.inputs := rfl
@[simp] theorem State.respond_draws (p : Pixel) : (s.respond p).draws = s.draws := rfl

/-! `nextDraw` -/

@[simp] theorem State.nextDraw_width : (s.nextDraw).width = s.width := rfl
@[simp] theorem State.nextDraw_height : (s.nextDraw).height = s.height := rfl
@[simp] theorem State.nextDraw_length : (s.nextDraw).length = s.length := rfl
@[simp] theorem State.nextDraw_opacity : (s.nextDraw).opacity = s.opacity := rfl
@[simp] theorem State.nextDraw_store : (s.nextDraw).store = s.store := rfl
@[simp] theorem State.nextDraw_rsp : (s.nextDraw).rsp = s.rsp := rfl
@[simp] theorem State.nextDraw_inputs : (s.nextDraw).inputs = s.inputs := rfl
@[simp] theorem State.nextDraw_draws : (s.nextDraw).draws = s.draws + 1 := rfl

/-! `applyReset` -/

@[simp] theorem State.applyReset_width : (s.applyReset).width = s.width := rfl
@[simp] theorem State.applyReset_height : (s.applyReset).height = s.height := rfl
@[simp] theorem State.applyReset_length : (s.applyReset).length = s.length := rfl
@[simp] theorem State.applyReset_opacity : (s.applyReset).opacity = Config.opacityReset := rfl
@[simp] theorem State.applyReset_store : (s.applyReset).store = [] := rfl
@[simp] theorem State.applyReset_rsp : (s.applyReset).rsp = none := rfl
@[simp] theorem State.applyReset_inputs : (s.applyReset).inputs = s.inputs := rfl
@[simp] theorem State.applyReset_draws : (s.applyReset).draws = s.draws := rfl

/-! `endResponse` -/

@[simp] theorem State.endResponse_width : (s.endResponse).width = s.width := rfl
@[simp] theorem State.endResponse_height : (s.endResponse).height = s.height := rfl
@[simp] theorem State.endResponse_length : (s.endResponse).length = s.length := rfl
@[simp] theorem State.endResponse_opacity : (s.endResponse).opacity = s.opacity := rfl
@[simp] theorem State.endResponse_store : (s.endResponse).store = s.store := rfl
@[simp] theorem State.endResponse_rsp : (s.endResponse).rsp = none := rfl
@[simp] theorem State.endResponse_inputs : (s.endResponse).inputs = s.inputs := rfl
@[simp] theorem State.endResponse_draws : (s.endResponse).draws = s.draws := rfl

/-! `advance` -/

@[simp] theorem State.advance_width : (s.advance).width = s.width := rfl
@[simp] theorem State.advance_height : (s.advance).height = s.height := rfl
@[simp] theorem State.advance_length : (s.advance).length = s.length := rfl
@[simp] theorem State.advance_opacity : (s.advance).opacity = s.opacity := rfl
@[simp] theorem State.advance_store : (s.advance).store = s.store := rfl
@[simp] theorem State.advance_rsp : (s.advance).rsp = s.rsp := rfl
@[simp] theorem State.advance_inputs : (s.advance).inputs = s.inputs.tail := rfl
@[simp] theorem State.advance_draws : (s.advance).draws = s.draws := rfl

/-! `offerWord` -/

@[simp] theorem State.offerWord_width (n : Nat) (w : CmdWord) :
    (s.offerWord n w).width = s.width := rfl
@[simp] theorem State.offerWord_height (n : Nat) (w : CmdWord) :
    (s.offerWord n w).height = s.height := rfl
@[simp] theorem State.offerWord_length (n : Nat) (w : CmdWord) :
    (s.offerWord n w).length = s.length := rfl
@[simp] theorem State.offerWord_opacity (n : Nat) (w : CmdWord) :
    (s.offerWord n w).opacity = s.opacity := rfl
@[simp] theorem State.offerWord_store (n : Nat) (w : CmdWord) :
    (s.offerWord n w).store = s.store := rfl
@[simp] theorem State.offerWord_rsp (n : Nat) (w : CmdWord) : (s.offerWord n w).rsp = s.rsp := rfl
@[simp] theorem State.offerWord_inputs (n : Nat) (w : CmdWord) :
    (s.offerWord n w).inputs = .command n w :: s.inputs := rfl
@[simp] theorem State.offerWord_draws (n : Nat) (w : CmdWord) :
    (s.offerWord n w).draws = s.draws := rfl

/-! What the block takes from the host's stream -/

@[simp] theorem State.offered_nil (h : s.inputs = []) : s.offered = .idle := by
  simp [State.offered, h]

@[simp] theorem State.offered_cons {i : Input} {rest : List Input} (h : s.inputs = i :: rest) :
    s.offered = i := by simp [State.offered, h]

@[simp] theorem State.offerWord_offered (n : Nat) (w : CmdWord) :
    (s.offerWord n w).offered = .command n w := rfl

@[simp] theorem State.endResponse_offered : s.endResponse.offered = s.offered := rfl

@[simp] theorem State.endResponse_position : s.endResponse.position = s.position := rfl

theorem State.position_command {n : Nat} {w : CmdWord} (h : s.offered = .command n w) :
    s.position = some n := by simp [State.position, h]

/-- Offering a word and moving on leaves the stream as it was. -/
theorem State.offerWord_advance (n : Nat) (w : CmdWord) : (s.offerWord n w).advance = s := rfl

/-! `onNext` -/

@[simp] theorem onNext_next (f : State → State) : onNext f (.next s) = .next (f s) := rfl

theorem onNext_eq_next {f : State → State} {o : Host.Outcome State Fault Refusal} {t : State} :
    onNext f o = .next t ↔ ∃ u, o = .next u ∧ t = f u := by
  cases o <;> simp [onNext, eq_comm]

@[simp] theorem onNext_eq_fault {f : State → State} {o : Host.Outcome State Fault Refusal}
    {why : Fault} : onNext f o = .fault why ↔ o = .fault why := by
  cases o <;> simp [onNext]

@[simp] theorem onNext_eq_refused {f : State → State} {o : Host.Outcome State Fault Refusal}
    {why : Refusal} : onNext f o = .refused why ↔ o = .refused why := by
  cases o <;> simp [onNext]

/-! `index`, `valid` and `place` read `WIDTH` and `LENGTH` only (R25, R26). -/

theorem State.valid_congr {s t : State} (hw : s.width = t.width) (hl : s.length = t.length)
    (x y : Int) : s.valid x y = t.valid x y := by
  rw [State.valid, State.valid, State.index, State.index, hw, hl]

theorem State.place_congr {s t : State} (hw : s.width = t.width) (x y : Int) :
    s.place x y = t.place x y := by
  rw [State.place, State.place, State.index, State.index, hw]

/-! No update changes a dimension, so none changes what is valid or where (R11). -/

section
variable (x y : Int)

@[simp] theorem State.valid_memWrite (idx : Nat) (p : Pixel) : (s.memWrite idx p).valid x y = s.valid x y := rfl
@[simp] theorem State.place_memWrite (idx : Nat) (p : Pixel) : (s.memWrite idx p).place x y = s.place x y := rfl
@[simp] theorem State.valid_fillStore (p : Pixel) : (s.fillStore p).valid x y = s.valid x y := rfl
@[simp] theorem State.place_fillStore (p : Pixel) : (s.fillStore p).place x y = s.place x y := rfl
@[simp] theorem State.valid_setOpacity (v : F32) : (s.setOpacity v).valid x y = s.valid x y := rfl
@[simp] theorem State.place_setOpacity (v : F32) : (s.setOpacity v).place x y = s.place x y := rfl
@[simp] theorem State.valid_respond (p : Pixel) : (s.respond p).valid x y = s.valid x y := rfl
@[simp] theorem State.place_respond (p : Pixel) : (s.respond p).place x y = s.place x y := rfl
@[simp] theorem State.valid_nextDraw : (s.nextDraw).valid x y = s.valid x y := rfl
@[simp] theorem State.place_nextDraw : (s.nextDraw).place x y = s.place x y := rfl
@[simp] theorem State.valid_applyReset : (s.applyReset).valid x y = s.valid x y := rfl
@[simp] theorem State.place_applyReset : (s.applyReset).place x y = s.place x y := rfl
@[simp] theorem State.valid_endResponse : (s.endResponse).valid x y = s.valid x y := rfl
@[simp] theorem State.place_endResponse : (s.endResponse).place x y = s.place x y := rfl
@[simp] theorem State.valid_advance : (s.advance).valid x y = s.valid x y := rfl
@[simp] theorem State.place_advance : (s.advance).place x y = s.place x y := rfl

end

/-- A valid target lies inside the store (R26). -/
theorem State.place_lt {s : State} {x y : Int} (h : s.valid x y = true) :
    s.place x y < s.length := by
  simp only [State.valid, decide_eq_true_eq] at h
  simp only [State.place]
  omega

/-- The place of a valid target is its index (R25). -/
theorem State.place_eq {s : State} {x y : Int} (h : s.valid x y = true) :
    (s.place x y : Int) = s.index x y := by
  simp only [State.valid, decide_eq_true_eq] at h
  simp only [State.place]
  omega

end Sys2Proof.Machine
end

