-- ==== Sys2Proof/Laws/Ops.lean ====
section
/-! SUPPORT. What each shared operation can do, said once: the store of a State, a pixel write, a
command, a step (spec/40_pixel_write.md R68, spec/30_encoding.md R43). Later proofs cite these and
do not unfold the operations. -/

namespace Sys2Proof.Machine

/-! ## The store of a State -/

theorem State.memRead_memWrite_same {s : State} (hs : Memory.wf s.store) (idx : Nat) (p : Pixel) :
    (s.memWrite idx p).memRead idx = p := by
  rw [State.memRead, State.memWrite_store, Memory.readPixel_writePixel_same hs]

theorem State.memRead_memWrite_other (s : State) {idx j : Nat} (p : Pixel) (h : j ≠ idx) :
    (s.memWrite idx p).memRead j = s.memRead j := by
  rw [State.memRead, State.memWrite_store, Memory.readPixel_writePixel_other _ _ h, State.memRead]

theorem State.memRead_fillStore {s : State} (hs : Memory.wf s.store) (p : Pixel) {idx : Nat}
    (h : idx < s.length) : (s.fillStore p).memRead idx = p := by
  rw [State.memRead, State.fillStore_store, Memory.readPixel_fill p hs h]

/-- Writes to two different pixels give the same state in either order. -/
theorem State.memWrite_comm {s : State} (hs : Memory.wf s.store) {i j : Nat} (p q : Pixel)
    (h : i ≠ j) : (s.memWrite i p).memWrite j q = (s.memWrite j q).memWrite i p := by
  simp only [State.memWrite]
  rw [Memory.writePixel_comm hs p q h]

/-- Of two writes to one pixel the later one is what is left. -/
theorem State.memWrite_same {s : State} (hs : Memory.wf s.store) (i : Nat) (p q : Pixel) :
    (s.memWrite i p).memWrite i q = s.memWrite i q := by
  simp only [State.memWrite]
  rw [Memory.writePixel_same hs i p q]

/-- `memRead` reads the store only. -/
theorem State.memRead_congr {s t : State} (h : s.store = t.store) (idx : Nat) :
    s.memRead idx = t.memRead idx := by rw [State.memRead, State.memRead, h]

/-! ## `afterBlend` touches the draw counter only -/

@[simp] theorem State.afterBlend_width (s : State) (m : BlendMode) :
    (s.afterBlend m).width = s.width := by cases m <;> rfl
@[simp] theorem State.afterBlend_height (s : State) (m : BlendMode) :
    (s.afterBlend m).height = s.height := by cases m <;> rfl
@[simp] theorem State.afterBlend_length (s : State) (m : BlendMode) :
    (s.afterBlend m).length = s.length := by cases m <;> rfl
@[simp] theorem State.afterBlend_opacity (s : State) (m : BlendMode) :
    (s.afterBlend m).opacity = s.opacity := by cases m <;> rfl
@[simp] theorem State.afterBlend_store (s : State) (m : BlendMode) :
    (s.afterBlend m).store = s.store := by cases m <;> rfl
@[simp] theorem State.afterBlend_rsp (s : State) (m : BlendMode) :
    (s.afterBlend m).rsp = s.rsp := by cases m <;> rfl
@[simp] theorem State.afterBlend_inputs (s : State) (m : BlendMode) :
    (s.afterBlend m).inputs = s.inputs := by cases m <;> rfl

/-! ## A pixel write -/

/-- A blend keeps the pixel or writes the blend function's result there. -/
theorem State.blendAt_cases (s : State) (mode : BlendMode) (idx : Nat) (c : Pixel) :
    (s.blend mode c (s.memRead idx) = none ∧ s.blendAt mode idx c = s) ∨
      ∃ p, s.blend mode c (s.memRead idx) = some p ∧
        s.blendAt mode idx c = (s.memWrite idx p).afterBlend mode := by
  cases h : s.blend mode c (s.memRead idx) with
  | none => exact .inl ⟨rfl, by rw [State.blendAt, h]⟩
  | some p => exact .inr ⟨p, rfl, by rw [State.blendAt, h]⟩

/-- On valid coordinates a pixel write blends there, whatever the bounds mode. -/
theorem State.pixelWrite_valid {s : State} {x y : Int} (h : s.valid x y = true) (mode : BlendMode)
    (bounds : BoundsMode) (c : Pixel) :
    s.pixelWrite mode bounds x y c = .next (s.blendAt mode (s.place x y) c) := by
  simp [State.pixelWrite, h]

theorem State.pixelWrite_checked_invalid {s : State} {x y : Int} (h : s.valid x y = false)
    (mode : BlendMode) (c : Pixel) : s.pixelWrite mode .checked x y c = .next s := by
  simp [State.pixelWrite, h]

theorem State.pixelWrite_unchecked_invalid {s : State} {x y : Int} (h : s.valid x y = false)
    (mode : BlendMode) (c : Pixel) :
    s.pixelWrite mode .unchecked x y c = .fault (.uncheckedOutOfRange s.position x y) := by
  simp [State.pixelWrite, h]

/-- Everything a pixel write that goes on can do. -/
theorem State.pixelWrite_next_cases {s t : State} {mode : BlendMode} {bounds : BoundsMode}
    {x y : Int} {c : Pixel} (h : s.pixelWrite mode bounds x y c = .next t) :
    (s.valid x y = true ∧ t = s.blendAt mode (s.place x y) c) ∨
      (s.valid x y = false ∧ bounds = .checked ∧ t = s) := by
  cases hv : s.valid x y with
  | true =>
    rw [State.pixelWrite_valid hv] at h
    cases h
    exact .inl ⟨rfl, rfl⟩
  | false =>
    cases bounds with
    | checked =>
      rw [State.pixelWrite_checked_invalid hv] at h
      cases h
      exact .inr ⟨rfl, rfl, rfl⟩
    | unchecked =>
      rw [State.pixelWrite_unchecked_invalid hv] at h
      cases h

/-- A pixel write stops only by the fault of an unchecked write out of range (R82). -/
theorem State.pixelWrite_fault {s : State} {mode : BlendMode} {bounds : BoundsMode} {x y : Int}
    {c : Pixel} {f : Fault} (h : s.pixelWrite mode bounds x y c = .fault f) :
    bounds = .unchecked ∧ s.valid x y = false ∧ f = .uncheckedOutOfRange s.position x y := by
  cases hv : s.valid x y with
  | true => rw [State.pixelWrite_valid hv] at h; cases h
  | false =>
    cases bounds with
    | checked => rw [State.pixelWrite_checked_invalid hv] at h; cases h
    | unchecked => rw [State.pixelWrite_unchecked_invalid hv] at h; cases h; exact ⟨rfl, rfl, rfl⟩

/-- What a pixel write that goes on leaves: the store unchanged, or one pixel inside it replaced;
nothing else changes but the draw counter. -/
theorem State.pixelWrite_next_effect {s t : State} {mode : BlendMode} {bounds : BoundsMode}
    {x y : Int} {c : Pixel} (h : s.pixelWrite mode bounds x y c = .next t) :
    t = s ∨ (s.valid x y = true ∧
      ∃ p, t = (s.memWrite (s.place x y) p).afterBlend mode) := by
  rcases State.pixelWrite_next_cases h with ⟨hv, rfl⟩ | ⟨-, -, rfl⟩
  · rcases State.blendAt_cases s mode (s.place x y) c with ⟨-, hk⟩ | ⟨p, -, hp⟩
    · exact .inl hk
    · exact .inr ⟨hv, p, hp⟩
  · exact .inl rfl

/-- A pixel write is never refused. -/
theorem State.pixelWrite_not_refused {s : State} {mode : BlendMode} {bounds : BoundsMode}
    {x y : Int} {c : Pixel} {r : Refusal} : s.pixelWrite mode bounds x y c ≠ .refused r := by
  intro h
  cases hv : s.valid x y with
  | true => rw [State.pixelWrite_valid hv] at h; cases h
  | false =>
    cases bounds with
    | checked => rw [State.pixelWrite_checked_invalid hv] at h; cases h
    | unchecked => rw [State.pixelWrite_unchecked_invalid hv] at h; cases h

/-! ## A command -/

/-- The eight primitives are the one pixel write (R68). -/
theorem exec_wpx (mode : BlendMode) (bounds : BoundsMode) (x y : Int) (c : Pixel) (s : State) :
    exec (Instr.wpx mode bounds x y c) s = s.pixelWrite mode bounds x y c := by
  cases mode <;> cases bounds <;> rfl

/-- Every command is one of the eight pixel writes, GET, FILL or SETOPA (R44). -/
theorem Instr.eq_wpx_or (i : Instr) : (∃ mode bounds x y c, i = Instr.wpx mode bounds x y c) ∨
    (∃ x y border, i = .get x y border) ∨ (∃ v, i = .fill v) ∨ ∃ v, i = .setopa v := by
  cases i with
  | wpxNoneC x y c => exact .inl ⟨.none, .checked, x, y, c, rfl⟩
  | wpxAddC x y c => exact .inl ⟨.add, .checked, x, y, c, rfl⟩
  | wpxAlphaC x y c => exact .inl ⟨.alpha, .checked, x, y, c, rfl⟩
  | wpxClipC x y c => exact .inl ⟨.clip, .checked, x, y, c, rfl⟩
  | wpxNoneU x y c => exact .inl ⟨.none, .unchecked, x, y, c, rfl⟩
  | wpxAddU x y c => exact .inl ⟨.add, .unchecked, x, y, c, rfl⟩
  | wpxAlphaU x y c => exact .inl ⟨.alpha, .unchecked, x, y, c, rfl⟩
  | wpxClipU x y c => exact .inl ⟨.clip, .unchecked, x, y, c, rfl⟩
  | get x y border => exact .inr (.inl ⟨x, y, border, rfl⟩)
  | fill v => exact .inr (.inr (.inl ⟨v, rfl⟩))
  | setopa v => exact .inr (.inr (.inr ⟨v, rfl⟩))

/-- Everything a command that goes on can do. -/
theorem exec_next_cases {i : Instr} {s t : State} (h : exec i s = .next t) :
    (∃ mode bounds x y c, i = Instr.wpx mode bounds x y c ∧
        s.pixelWrite mode bounds x y c = .next t) ∨
      (∃ x y border, i = .get x y border ∧ t = s.respond (s.fetched x y border)) ∨
      (∃ v, i = .fill v ∧ t = s.fillStore v) ∨ (∃ v, i = .setopa v ∧ t = s.setOpacity v) := by
  rcases Instr.eq_wpx_or i with ⟨m, b, x, y, c, rfl⟩ | ⟨x, y, c, rfl⟩ | ⟨v, rfl⟩ | ⟨v, rfl⟩
  · rw [exec_wpx] at h; exact .inl ⟨m, b, x, y, c, rfl, h⟩
  · cases h; exact .inr (.inl ⟨x, y, c, rfl, rfl⟩)
  · cases h; exact .inr (.inr (.inl ⟨v, rfl, rfl⟩))
  · cases h; exact .inr (.inr (.inr ⟨v, rfl, rfl⟩))

/-- A command is never refused once it is decoded. -/
theorem exec_not_refused {i : Instr} {s : State} {r : Refusal} : exec i s ≠ .refused r := by
  rcases Instr.eq_wpx_or i with ⟨m, b, x, y, c, rfl⟩ | ⟨x, y, c, rfl⟩ | ⟨v, rfl⟩ | ⟨v, rfl⟩
  · rw [exec_wpx]; exact State.pixelWrite_not_refused
  all_goals (intro h; cases h)

/-! ## A step -/

/-- Everything a step that goes on can do. -/
theorem step_next_cases {s t : State} (h : step s = .next t) :
    (s.offered = .idle ∧ t = s.endResponse.advance) ∨
      (s.offered = .reset ∧ t = s.endResponse.applyReset.advance) ∨
      ∃ n w i u, s.offered = .command n w ∧ decode w = .ok i ∧ exec i s.endResponse = .next u ∧
        t = u.advance := by
  obtain ⟨u, hu, rfl⟩ := onNext_eq_next.1 h
  rw [runOffered, State.endResponse_offered] at hu
  cases ho : s.offered with
  | idle => rw [ho] at hu; cases hu; exact .inl ⟨rfl, rfl⟩
  | reset => rw [ho] at hu; cases hu; exact .inr (.inl ⟨rfl, rfl⟩)
  | command n w =>
    simp only [ho, runWord] at hu
    cases hd : decode w with
    | ok i => rw [hd] at hu; exact .inr (.inr ⟨n, w, i, u, rfl, hd, hu, rfl⟩)
    | error e => rw [hd] at hu; cases hu

/-- A command that goes on leaves the host's stream alone (R13, R39). -/
theorem exec_inputs {i : Instr} {s t : State} (h : exec i s = .next t) : t.inputs = s.inputs := by
  rcases exec_next_cases h with ⟨m, b, x, y, c, -, h⟩ | ⟨_, _, _, -, rfl⟩ | ⟨_, -, rfl⟩ | ⟨_, -, rfl⟩
  · rcases State.pixelWrite_next_effect h with rfl | ⟨-, p, rfl⟩ <;> simp
  all_goals rfl

/-- A step at which the host offers nothing (R43). -/
theorem step_idle {s : State} (h : s.offered = .idle) : step s = .next s.endResponse.advance := by
  rw [step, runOffered, State.endResponse_offered, h, onNext_next]

/-- A step at which `rst` is high (R126). -/
theorem step_reset {s : State} (h : s.offered = .reset) :
    step s = .next s.endResponse.applyReset.advance := by
  rw [step, runOffered, State.endResponse_offered, h, onNext_next]

/-- A step at which the host offers a command runs it; a stop of the command is the step's (R43). -/
theorem step_command {s : State} {n : Nat} {w : CmdWord} (h : s.offered = .command n w) :
    step s = onNext State.advance (runWord w s.endResponse) := by
  rw [step, runOffered, State.endResponse_offered, h]

end Sys2Proof.Machine
end

