-- ==== Sys2Proof/Laws/PerInstr.lean ====
section
/-! SUPPORT. Per-command families (LAWS.json). `FixedFields`: the word a command is assembled to
has its must-be-zero fields zero and an opcode of the eleven (spec/30_encoding.md R44, R48, R52). -/

namespace Sys2Proof.Laws

/-- The assembled word is not reserved. -/
def FixedFields.Statement (i : Instr) : Prop :=
  (encode i).z0 = 0 ∧ (encode i).z1 = 0 ∧ (encode i).op.toNat < 11

/-- Every assembled word with an opcode of the eleven has the fixed fields right. -/
theorem FixedFields.of_assemble {i : Instr} {op : BitVec 4} {x y : BitVec 32} {c : Pixel}
    (h : encode i = assembleWord op x y c) (hop : op.toNat < 11) : FixedFields.Statement i := by
  rw [FixedFields.Statement, h]
  exact ⟨assembleWord_z0 .., assembleWord_z1 .., by rwa [assembleWord_op]⟩

theorem FixedFields.wpxNoneC (x y : Int) (c : Pixel) : FixedFields.Statement (.wpxNoneC x y c) :=
  FixedFields.of_assemble rfl (by decide)

theorem FixedFields.wpxAddC (x y : Int) (c : Pixel) : FixedFields.Statement (.wpxAddC x y c) :=
  FixedFields.of_assemble rfl (by decide)

theorem FixedFields.wpxAlphaC (x y : Int) (c : Pixel) : FixedFields.Statement (.wpxAlphaC x y c) :=
  FixedFields.of_assemble rfl (by decide)

theorem FixedFields.wpxClipC (x y : Int) (c : Pixel) : FixedFields.Statement (.wpxClipC x y c) :=
  FixedFields.of_assemble rfl (by decide)

theorem FixedFields.wpxNoneU (x y : Int) (c : Pixel) : FixedFields.Statement (.wpxNoneU x y c) :=
  FixedFields.of_assemble rfl (by decide)

theorem FixedFields.wpxAddU (x y : Int) (c : Pixel) : FixedFields.Statement (.wpxAddU x y c) :=
  FixedFields.of_assemble rfl (by decide)

theorem FixedFields.wpxAlphaU (x y : Int) (c : Pixel) : FixedFields.Statement (.wpxAlphaU x y c) :=
  FixedFields.of_assemble rfl (by decide)

theorem FixedFields.wpxClipU (x y : Int) (c : Pixel) : FixedFields.Statement (.wpxClipU x y c) :=
  FixedFields.of_assemble rfl (by decide)

theorem FixedFields.get (x y : Int) (border : Pixel) :
    FixedFields.Statement (.get x y border) := FixedFields.of_assemble rfl (by decide)

theorem FixedFields.fill (v : Pixel) : FixedFields.Statement (.fill v) :=
  FixedFields.of_assemble rfl (by decide)

theorem FixedFields.setopa (v : F32) : FixedFields.Statement (.setopa v) :=
  FixedFields.of_assemble rfl (by decide)

end Sys2Proof.Laws
end

