-- ==== Sys2Proof/Tests/Slice0.lean ====
section
/-! SUPPORT. Small tests of the model and the witnesses of its statements' hypotheses. Expected
results are the spec's own: spec/95_test_vectors.md and the examples of the rules cited; none is
the model's answer pasted back. -/

namespace Sys2Proof.Tests

open Sys2Proof.Machine

set_option Elab.async false

/-! ## Small states -/

/-- The pixel after a command, where the command goes on. -/
def pixelAfter (i : Instr) (s : State) (idx : Nat) : Option Pixel :=
  (next? (exec i s)).map fun t => t.memRead idx

/-- The fault a command stops with. -/
def faultOf (o : Host.Outcome State Fault Refusal) : Option Fault :=
  match o with
  | .next _ => none
  | .fault f => some f
  | .refused _ => none

/-- The refusal a step stops with. -/
def refusalOf (o : Host.Outcome State Fault Refusal) : Option Refusal :=
  match o with
  | .next _ => none
  | .fault _ => none
  | .refused r => some r

/-- The 4 x 3 block after reset with one pixel set. -/
def withPixel (idx : Nat) (p : Pixel) : State := State.reset.memWrite idx p

/-- The 4 x 3 block after reset with this input offered next. -/
def withInput (i : Input) : State := { State.reset with inputs := [i] }

/-- Grey levels the examples of the spec use. -/
def quarter : F32 := 0x3E800000#32
def half : F32 := 0x3F000000#32
def threeQuarters : F32 := 0x3F400000#32
def one : F32 := 0x3F800000#32

def white : Pixel := ⟨one, one, one, one⟩
def nine : Pixel := ⟨0x41100000#32, 0x41100000#32, 0x41100000#32, 0x41100000#32⟩

/-- The colour `(0.25, 0.5, 0.75, 1)` of part 2.3. -/
def ramp : Pixel := ⟨quarter, half, threeQuarters, one⟩

/-- `(0.1, 0.2, 0.3, 0.4)` of the Clip vectors. -/
def clipDest : Pixel := ⟨0x3DCCCCCD#32, 0x3E4CCCCD#32, 0x3E99999A#32, 0x3ECCCCCD#32⟩

/-- A pixel of four NaNs. -/
def nans : Pixel := ⟨0x7FC00000#32, 0x7FC00000#32, 0xFFC00001#32, 0x7F800001#32⟩

/-! ## Well-formedness (R46): one ill-formed term for each check -/

theorem test_wf_extremes : (Instr.wpxNoneC 2147483647 (-2147483648) ramp).wf = true ∧
    (Instr.get (-2147483648) 2147483647 ramp).wf = true := by decide

theorem test_wf_refuses_x_above : (Instr.wpxNoneC 2147483648 0 ramp).wf = false ∧
    (Instr.wpxAddU 2147483648 0 ramp).wf = false := by decide

theorem test_wf_refuses_x_below : (Instr.wpxAddC (-2147483649) 0 ramp).wf = false ∧
    (Instr.wpxAlphaU (-2147483649) 0 ramp).wf = false := by decide

theorem test_wf_refuses_y_above : (Instr.wpxAlphaC 0 2147483648 ramp).wf = false ∧
    (Instr.wpxClipU 0 2147483648 ramp).wf = false := by decide

theorem test_wf_refuses_y_below : (Instr.wpxClipC 0 (-2147483649) ramp).wf = false ∧
    (Instr.wpxNoneU 0 (-2147483649) ramp).wf = false ∧
    (Instr.get 0 (-2147483649) ramp).wf = false := by decide

theorem test_wf_no_coordinates : (Instr.fill nans).wf = true ∧
    (Instr.setopa 0xFFFFFFFF#32).wf = true := by decide

/-! ## Decoding and encoding (part 2.3): a word written out for every constructor -/

theorem test_word_wpxNoneC :
    decode 0x3F8000003F4000003F0000003E80000000000000FFFFFFFD0000000200000000#256 =
        .ok (.wpxNoneC 2 (-3) ramp) ∧
      encode (.wpxNoneC 2 (-3) ramp) =
        0x3F8000003F4000003F0000003E80000000000000FFFFFFFD0000000200000000#256 := by decide

theorem test_word_wpxAddC :
    decode 0x3F8000003F4000003F0000003E80000000000000FFFFFFFD0000000200000001#256 =
        .ok (.wpxAddC 2 (-3) ramp) ∧
      encode (.wpxAddC 2 (-3) ramp) =
        0x3F8000003F4000003F0000003E80000000000000FFFFFFFD0000000200000001#256 := by decide

theorem test_word_wpxAlphaC :
    decode 0x3F8000003F4000003F0000003E80000000000000FFFFFFFD0000000200000002#256 =
        .ok (.wpxAlphaC 2 (-3) ramp) ∧
      encode (.wpxAlphaC 2 (-3) ramp) =
        0x3F8000003F4000003F0000003E80000000000000FFFFFFFD0000000200000002#256 := by decide

theorem test_word_wpxClipC :
    decode 0x3F8000003F4000003F0000003E80000000000000FFFFFFFD0000000200000003#256 =
        .ok (.wpxClipC 2 (-3) ramp) ∧
      encode (.wpxClipC 2 (-3) ramp) =
        0x3F8000003F4000003F0000003E80000000000000FFFFFFFD0000000200000003#256 := by decide

theorem test_word_wpxNoneU :
    decode 0x3F8000003F4000003F0000003E80000000000000FFFFFFFD0000000200000004#256 =
        .ok (.wpxNoneU 2 (-3) ramp) ∧
      encode (.wpxNoneU 2 (-3) ramp) =
        0x3F8000003F4000003F0000003E80000000000000FFFFFFFD0000000200000004#256 := by decide

theorem test_word_wpxAddU :
    decode 0x3F8000003F4000003F0000003E80000000000000FFFFFFFD0000000200000005#256 =
        .ok (.wpxAddU 2 (-3) ramp) ∧
      encode (.wpxAddU 2 (-3) ramp) =
        0x3F8000003F4000003F0000003E80000000000000FFFFFFFD0000000200000005#256 := by decide

theorem test_word_wpxAlphaU :
    decode 0x3F8000003F4000003F0000003E80000000000000FFFFFFFD0000000200000006#256 =
        .ok (.wpxAlphaU 2 (-3) ramp) ∧
      encode (.wpxAlphaU 2 (-3) ramp) =
        0x3F8000003F4000003F0000003E80000000000000FFFFFFFD0000000200000006#256 := by decide

theorem test_word_wpxClipU :
    decode 0x3F8000003F4000003F0000003E80000000000000FFFFFFFD0000000200000007#256 =
        .ok (.wpxClipU 2 (-3) ramp) ∧
      encode (.wpxClipU 2 (-3) ramp) =
        0x3F8000003F4000003F0000003E80000000000000FFFFFFFD0000000200000007#256 := by decide

theorem test_word_get :
    decode 0x3F8000003F4000003F0000003E80000000000000FFFFFFFD0000000200000008#256 =
        .ok (.get 2 (-3) ramp) ∧
      encode (.get 2 (-3) ramp) =
        0x3F8000003F4000003F0000003E80000000000000FFFFFFFD0000000200000008#256 := by decide

theorem test_word_fill :
    decode 0x3F8000003F4000003F0000003E80000000000000000000000000000000000009#256 =
        .ok (.fill ramp) ∧
      encode (.fill ramp) =
        0x3F8000003F4000003F0000003E80000000000000000000000000000000000009#256 := by decide

theorem test_word_setopa :
    decode 0x3F4000000000000000000000000000000000000000000000000000000000000A#256 =
        .ok (.setopa threeQuarters) ∧
      encode (.setopa threeQuarters) =
        0x3F4000000000000000000000000000000000000000000000000000000000000A#256 := by decide

/-- The coordinate fields are signed; FILL and SETOPA ignore them (part 2.3). -/
theorem test_decode_fields :
    decode 0x00000001FF800000800000007FC00001000000007FFFFFFFFFFFFFFF00000002#256 =
        .ok (.wpxAlphaC (-1) 2147483647 ⟨0x7FC00001#32, 0x80000000#32, 0xFF800000#32, 1#32⟩) ∧
      decode 0x0000000000000000000000000000000000000000000000008000000000000008#256 =
        .ok (.get (-2147483648) 0 ⟨0, 0, 0, 0⟩) ∧
      decode 0x3F8000003F8000003F8000003F80000000000000000000070000000500000009#256 =
        .ok (.fill white) ∧
      decode 0x3F0000003E99999A3E4CCCCD3DCCCCCD0000000000000007000000050000000A#256 =
        .ok (.setopa half) := by decide

/-- The reserved words of part 2.3, and the all-zero word, which is a command. -/
theorem test_decode_reserved :
    decode 0xB#256 = .error (.opcode 0xB) ∧ decode 0xC#256 = .error (.opcode 0xC) ∧
      decode 0xD#256 = .error (.opcode 0xD) ∧ decode 0xE#256 = .error (.opcode 0xE) ∧
      decode 0xF#256 = .error (.opcode 0xF) ∧ decode 0x10#256 = .error (.z0 1) ∧
      decode 0x80000008#256 = .error (.z0 0x8000000) ∧
      decode 0x3F8000003F8000003F8000003F80000000000001000000000000000000000009#256 =
        .error (.z1 1) ∧
      decode 0#256 = .ok (.wpxNoneC 0 0 ⟨0, 0, 0, 0⟩) := by decide

/-- An assembled line (part 2.3): `WPX 2, 1, 2, -3, (0.25, 0.5, 0.75, 1)`. -/
theorem test_assemble :
    (AsmLine.wpx .alpha .unchecked 2 (-3) ⟨.decimal false 25 2, .decimal false 5 1,
      .decimal false 75 2, .decimal false 1 0⟩).word =
      0x3F8000003F4000003F0000003E80000000000000FFFFFFFD0000000200000006#256 := by decide +kernel

/-- Log 19: the largest finite value, the least decimal that is an infinity, a negative zero. -/
theorem test_decimal_edges :
    (AsmNumber.decimal false ((2 ^ 24 - 1) * 2 ^ 104) 0).value = 0x7F7FFFFF#32 ∧
      (AsmNumber.decimal false ((2 ^ 25 - 1) * 2 ^ 103 - 1) 0).value = 0x7F7FFFFF#32 ∧
      (AsmNumber.decimal true ((2 ^ 25 - 1) * 2 ^ 103) 0).value = 0xFF800000#32 ∧
      (AsmNumber.decimal true 0 0).value = 0x80000000#32 := by decide +kernel

/-! ## Arithmetic (part 2.1) -/

theorem test_fmul_vectors : fmul 0 0x3DCCCCCD#32 0x3F333333#32 = 0x3D8F5C29#32 ∧
    fmul 0 0x00000003#32 0x3F000000#32 = 0x00000002#32 ∧
    fmul 0 0x3FC00001#32 0x3FC00001#32 = 0x40100002#32 ∧
    fmul 0 0x7F800000#32 0xBF800000#32 = 0xFF800000#32 ∧
    fmul 0 0x7F7FFFFF#32 0x40000000#32 = 0x7F800000#32 := by decide +kernel

theorem test_fadd_vectors : fadd 0 0x3F000000#32 0x3F4CCCCD#32 = 0x3FA66666#32 ∧
    fadd 0 0x3F800000#32 0x33800000#32 = 0x3F800000#32 ∧
    fadd 0 0x80000000#32 0x80000000#32 = 0x80000000#32 ∧
    fadd 0 0x00000001#32 0x00000001#32 = 0x00000002#32 := by decide +kernel

theorem test_fsub_vectors : fsub 0 0x3F800000#32 0x3F800000#32 = 0x00000000#32 ∧
    fsub 0 0x3F800000#32 0x33800000#32 = 0x3F7FFFFF#32 ∧
    fsub 0 0x3F800000#32 0x7F800000#32 = 0xFF800000#32 := by decide +kernel

/-- `infinity x 0` and `infinity - infinity` take whatever NaN they are given. -/
theorem test_nan_results : ∀ n : F32, fmul n 0x7F800000#32 0x00000000#32 = n ∧
    fadd n 0x7F800000#32 0xFF800000#32 = n := fun _ => ⟨rfl, rfl⟩

/-! ## One command at a time (the examples of R73 to R80, R90, R91, R93; part 2.4) -/

theorem test_none_checked :
    pixelAfter (.wpxNoneC 1 2 ⟨quarter, half, threeQuarters, half⟩) State.reset 9 =
      some ⟨0x3E800000#32, 0x3F000000#32, 0x3F400000#32, 0x3F000000#32⟩ := by decide +kernel

theorem test_none_checked_outside :
    next? (exec (.wpxNoneC 4 0 white) State.reset) = some State.reset := by decide +kernel

theorem test_none_unchecked : pixelAfter (.wpxNoneU 3 0 white) State.reset 3 = some white := by
  decide +kernel

theorem test_none_unchecked_outside :
    faultOf (exec (.wpxNoneU (-1) 1 white) State.reset) =
      some (.uncheckedOutOfRange none (-1) 1) := by
  decide +kernel

theorem test_add_checked :
    pixelAfter (.wpxAddC 0 0 ⟨half, 0, 0, one⟩)
        (withPixel 0 ⟨0x3F4CCCCD#32, 0x3F4CCCCD#32, 0x3F4CCCCD#32, 0x3E99999A#32⟩) 0 =
      some ⟨0x3FA66666#32, 0x3F4CCCCD#32, 0x3F4CCCCD#32, 0x3F800000#32⟩ := by decide +kernel

/-- The vector that tells a fused multiply-add from separate rounding. -/
theorem test_add_checked_unfused :
    pixelAfter (.wpxAddC 0 0 ⟨0x3DCCCCCD#32, 0x3DCCCCCD#32, 0x3DCCCCCD#32, 0x3E99999A#32⟩)
        (withPixel 0 ⟨0x3F000000#32, 0x3DCCCCCD#32, 0x3F666666#32, 0⟩) 0 =
      some ⟨0x3F07AE14#32, 0x3E051EB8#32, 0x3F6E147A#32, 0x3F800000#32⟩ := by decide +kernel

theorem test_add_unchecked :
    pixelAfter (.wpxAddU 1 1 ⟨half, half, half, half⟩)
        (withPixel 5 ⟨quarter, quarter, quarter, 0⟩) 5 = some ⟨half, half, half, one⟩ := by
  decide +kernel

theorem test_add_unchecked_outside :
    faultOf (exec (.wpxAddU 0 3 white) State.reset) =
      some (.uncheckedOutOfRange none 0 3) := by
  decide +kernel

theorem test_alpha_checked :
    pixelAfter (.wpxAlphaC 2 1 ⟨one, half, quarter, half⟩) (withPixel 6 ⟨0, half, one, half⟩) 6 =
      some ⟨0x3F000000#32, 0x3F000000#32, 0x3F200000#32, 0x3F400000#32⟩ := by decide +kernel

theorem test_alpha_checked_inexact :
    pixelAfter (.wpxAlphaC 0 0 ⟨0x3DCCCCCD#32, 0x3E4CCCCD#32, 0x3E99999A#32, 0x3F333333#32⟩)
        (withPixel 0 ⟨0x3F666666#32, 0x3F4CCCCD#32, 0x3F19999A#32, 0x3ECCCCCD#32⟩) 0 =
      some ⟨0x3EAE147B#32, 0x3EC28F5C#32, 0x3EC7AE15#32, 0x3F51EB85#32⟩ := by decide +kernel

/-- `OPACITY = 0.5` halves the alpha (R78). -/
theorem test_alpha_unchecked :
    pixelAfter (.wpxAlphaU 2 1 ⟨one, half, quarter, half⟩)
        { withPixel 6 ⟨0, half, one, half⟩ with opacity := half } 6 =
      some ⟨0x3E800000#32, 0x3F000000#32, 0x3F500000#32, 0x3F200000#32⟩ := by decide +kernel

theorem test_alpha_unchecked_outside :
    faultOf (exec (.wpxAlphaU 4 0 white) State.reset) =
      some (.uncheckedOutOfRange none 4 0) := by
  decide +kernel

theorem test_clip_checked_below :
    pixelAfter (.wpxClipC 0 1 ⟨one, 0, 0, 0x3F7AE148#32⟩) (withPixel 4 clipDest) 4 =
      some clipDest := by decide +kernel

theorem test_clip_checked_above :
    pixelAfter (.wpxClipC 0 1 ⟨one, 0, 0, one⟩) (withPixel 4 clipDest) 4 =
      some ⟨one, 0, 0, one⟩ := by decide +kernel

theorem test_clip_unchecked :
    pixelAfter (.wpxClipU 3 2 ⟨half, half, half, 0x3F7EB852#32⟩) State.reset 11 =
      some ⟨half, half, half, 0x3F7EB852#32⟩ := by decide +kernel

/-- The bounds come before the alpha test (R80). -/
theorem test_clip_unchecked_outside :
    faultOf (exec (.wpxClipU 4 0 ⟨one, one, one, 0⟩) State.reset) =
      some (.uncheckedOutOfRange none 4 0) := by decide +kernel

theorem test_get_inside :
    (next? (exec (.get 1 1 nine) State.reset)).map (·.rsp) = some (some ⟨0, 0, 0, 0⟩) := by
  decide +kernel

theorem test_get_border : (next? (exec (.get 4 1 nine) State.reset)).map (·.rsp) =
      some (some nine) ∧
    (next? (exec (.get (-1) 1 nine) State.reset)).map (·.rsp) = some (some nine) := by
  decide +kernel

theorem test_fill : pixelAfter (.fill ⟨0, 0, 0, one⟩) State.reset 0 = some ⟨0, 0, 0, one⟩ ∧
    pixelAfter (.fill ⟨0, 0, 0, one⟩) State.reset 11 = some ⟨0, 0, 0, one⟩ := by decide +kernel

theorem test_setopa :
    next? (exec (.setopa half) State.reset) =
      some { State.reset with opacity := 0x3F000000#32 } := by decide +kernel

/-- `infinity x 0` makes channel R the NaN drawn for it (part 2.4), which is a NaN. -/
theorem test_add_nan_lane (draw : Nat) : F32.isNaN (blendAdd (freeNaNs draw)
    ⟨0x7F800000#32, one, one, 0⟩ ⟨0, 0, 0, 0⟩).r = true := by
  have hm : fmul (freeNaN draw 0) 0x7F800000#32 0 = freeNaN draw 0 := rfl
  have h := F32.isNaN_freeNaN draw 0
  simp only [blendAdd, freeNaNs, hm]
  rw [fadd_nan (.inl h)]
  exact h

/-! ## One step -/

/-- Program P1, command 2, as the first command after reset. -/
theorem test_step_command :
    (next? (step (withInput (.command 1
      0x3F0000003F4000003F0000003E80000000000000000000020000000100000000#256)))).map
        (fun t => (t.memRead 9, t.inputs)) =
      some (⟨0x3E800000#32, 0x3F000000#32, 0x3F400000#32, 0x3F000000#32⟩, []) := by
  decide +kernel

theorem test_step_reserved : refusalOf (step (withInput (.command 5 0xB#256))) =
    some (.reservedWord (some 5) 0xB#256 (.opcode 0xB)) := by decide +kernel

/-- The fault carries the place the host's stream gives the command (R112); here the seventh. -/
theorem test_step_fault : faultOf (step (withInput (.command 7 (encode (.wpxClipU 5 0 ramp))))) =
    some (.uncheckedOutOfRange (some 7) 5 0) := by decide +kernel

/-- A line whose coordinates fit, and one whose do not (R46, R52; log 18). -/
theorem test_line_wf :
    (AsmLine.get 2147483647 (-2147483648) ⟨.pattern 0, .pattern 0, .pattern 0, .pattern 0⟩).wf =
      true ∧
    (AsmLine.set 0 2147483648 ⟨.pattern 0, .pattern 0, .pattern 0, .pattern 0⟩).wf = false := by
  decide

theorem test_step_reset :
    next? (step { withInput .reset with store := [(3, 1#8)], opacity := half }) =
      some State.reset := by decide +kernel

/-! ## Witnesses: states and operands that meet the hypotheses of the statements -/

/-- On valid coordinates every pixel write goes on. -/
theorem goes_on {s : State} {x y : Int} (h : s.valid x y = true) (mode : BlendMode)
    (bounds : BoundsMode) (c : Pixel) : ∃ t, exec (Instr.wpx mode bounds x y c) s = .next t :=
  ⟨_, (exec_wpx mode bounds x y c s).trans (State.pixelWrite_valid h mode bounds c)⟩

/-- The invariant holds after reset, so it is no empty hypothesis. -/
theorem test_witness_inv : State.reset.Inv :=
  ⟨⟨by decide, by decide, by decide⟩, rfl, Memory.wf_nil, by simp [State.reset]⟩

/-- `DecodeOfEncode`: the extremes of the coordinate fields. -/
theorem test_witness_decode_of_encode :
    (Instr.wpxClipU 2147483647 (-2147483648) nans).wf = true ∧ (Instr.fill nans).wf = true ∧
      (Instr.setopa 0x7F800001#32).wf = true := by decide

/-- `EncodeOfDecode`: a word of each case. -/
theorem test_witness_encode_of_decode :
    (∃ i, decode 0x3F8000003F8000003F8000003F80000000000000000000070000000500000009#256 =
      .ok i ∧ i = .fill white) ∧
    (∃ i, decode 0x3F0000003E99999A3E4CCCCD3DCCCCCD0000000000000007000000050000000A#256 =
      .ok i ∧ i = .setopa half) ∧
    ∃ i, decode 0#256 = .ok i ∧ i = .wpxNoneC 0 0 ⟨0, 0, 0, 0⟩ :=
  ⟨⟨_, by decide, rfl⟩, ⟨_, by decide, rfl⟩, ⟨_, by decide, rfl⟩⟩

/-- `DispatcherIsNamedPrimitive`: the first and the last of the eight, and one between. -/
theorem test_witness_dispatcher :
    (CmdWord.z0 0#256 = 0 ∧ CmdWord.z1 0#256 = 0 ∧
      (CmdWord.op 0#256).toNat = 4 * BoundsMode.checked.code.toNat + BlendMode.none.code.toNat) ∧
    (CmdWord.z0 6#256 = 0 ∧ CmdWord.z1 6#256 = 0 ∧
      (CmdWord.op 6#256).toNat =
        4 * BoundsMode.unchecked.code.toNat + BlendMode.alpha.code.toNat) ∧
    (CmdWord.z0 7#256 = 0 ∧ CmdWord.z1 7#256 = 0 ∧
      (CmdWord.op 7#256).toNat =
        4 * BoundsMode.unchecked.code.toNat + BlendMode.clip.code.toNat) := by decide

/-- `GetResponds`, `FillSetsEveryPixel`, `SetopaWritesOpacity`: a word of each opcode. -/
theorem test_witness_opcodes :
    (CmdWord.z0 8#256 = 0 ∧ CmdWord.z1 8#256 = 0 ∧ CmdWord.op 8#256 = 0x8#4) ∧
    (CmdWord.z0 9#256 = 0 ∧ CmdWord.z1 9#256 = 0 ∧ CmdWord.op 9#256 = 0x9#4) ∧
    (CmdWord.z0 10#256 = 0 ∧ CmdWord.z1 10#256 = 0 ∧ CmdWord.op 10#256 = 0xA#4) := by decide

/-- `ValidIsRectangle`: `LENGTH = WIDTH * HEIGHT`, the first and the last pixel, the last index. -/
theorem test_witness_rectangle : State.reset.length = State.reset.width * State.reset.height ∧
    State.reset.valid 0 0 = true ∧ State.reset.valid 3 2 = true ∧
    State.reset.index 3 2 = 11 ∧ 11 < State.reset.length := by decide

/-- `StepKeepsInvariant`, `DimensionsFixed`, `OnlyGetResponds`: a state with the invariant that
steps, by a pixel write, by a GET and by nothing. -/
theorem test_witness_steps :
    (withInput (.command 1 0#256)).Inv ∧ (next? (step (withInput (.command 1 0#256)))).isSome ∧
      (next? (step (withInput (.command 1 8#256)))).map (·.rsp) = some (some ⟨0, 0, 0, 0⟩) ∧
      (next? (step (withInput .idle))).map (·.rsp) = some none :=
  ⟨⟨⟨by decide, by decide, by decide⟩, rfl, Memory.wf_nil, by simp [State.reset, withInput]⟩,
    by decide +kernel, by decide +kernel, by decide +kernel⟩

/-- `ResetHasInvariant`: the largest dimensions, a zero dimension, the instance of log 3. -/
theorem test_witness_dims :
    dimsOk 2147483647 1 ∧ dimsOk 1 2147483647 ∧ dimsOk 0 5 ∧ dimsOk 5 0 ∧ dimsOk 4 3 := by
  refine ⟨?_, ?_, ?_, ?_, ?_⟩ <;> refine ⟨?_, ?_, ?_⟩ <;> decide

/-- `DimensionsFixed`: the largest other dimension, and instances with a zero dimension. -/
theorem test_witness_zero_dimension : 2147483647 < 2 ^ 31 ∧
    ((State.resetWith 0 5 ramp []).width = 0 ∧ (State.resetWith 0 5 ramp []).length = 0 * 5) ∧
    (State.resetWith 5 0 ramp []).height = 0 ∧ (State.resetWith 5 0 ramp []).length = 5 * 0 := by
  decide

/-- `ResetState`, `ResetInput`: `rst` high, and the last pixel. -/
theorem test_witness_reset : (withInput .reset).offered = .reset ∧
    (withInput .reset).inputs = .reset :: [] ∧ 11 < 4 * 3 ∧ 11 < (withInput .reset).length := by
  decide

/-- `StepRunsDecodedCommand`: an offered command that decodes, and a row pattern that decodes. -/
theorem test_witness_step_runs :
    (withInput (.command 1 9#256)).inputs = .command 1 9#256 :: [] ∧
      decode 9#256 = .ok (.fill ⟨0, 0, 0, 0⟩) ∧
      decodeTableWord 256 9 = some (.fill ⟨0, 0, 0, 0⟩) := by decide

/-- `StepIdles`: no input left, and an idle edge. -/
theorem test_witness_idle :
    State.reset.inputs = [] ∧ (withInput .idle).inputs = .idle :: [] := by decide

/-- `SafeCommandCompletes`: an unchecked command at the last pixel, a checked one outside. -/
theorem test_witness_safe : State.reset.safeCommand (.wpxAddU 3 2 ramp) = true ∧
    State.reset.safeCommand (.wpxAddC 4 0 ramp) = true := by decide

/-- `NoneReplacesPixel`, `AddBlendsPixel`, `AlphaBlendsPixel`, `DrawsAreFresh`,
`BoundsModesAgree`, `SetThenGet`, `ScanOutShowsStore` (with `test_witness_inv`),
`FillSetsEveryPixel`: a store in canonical form, coordinates at the corners. -/
theorem test_witness_valid : Memory.wf State.reset.store ∧ State.reset.valid 0 0 = true ∧
    State.reset.valid 3 0 = true ∧ State.reset.valid 0 2 = true ∧
    State.reset.valid 3 2 = true := ⟨Memory.wf_nil, by decide, by decide, by decide, by decide⟩

/-- `DrawsAreFresh`: each mode goes on at the last pixel. -/
theorem test_witness_draws :
    (∃ t, exec (Instr.wpx .add .checked 3 2 ramp) State.reset = .next t) ∧
      (∃ t, exec (Instr.wpx .alpha .unchecked 3 2 ramp) State.reset = .next t) ∧
      (∃ t, exec (Instr.wpx .none .checked 3 2 ramp) State.reset = .next t) ∧
      ∃ t, exec (Instr.wpx .clip .unchecked 3 2 ramp) State.reset = .next t :=
  ⟨goes_on (by decide) _ _ _, goes_on (by decide) _ _ _, goes_on (by decide) _ _ _,
    goes_on (by decide) _ _ _⟩

/-- `ClipTestsAlpha`: both branches, at the threshold and one above it. -/
theorem test_witness_clip : Memory.wf State.reset.store ∧ State.reset.valid 3 2 = true ∧
    fgt 0x3F7D70A4#32 0x3F7D70A4#32 = false ∧ fgt 0x3F7D70A5#32 0x3F7D70A4#32 = true :=
  ⟨Memory.wf_nil, by decide, by decide, by decide⟩

/-- `CheckedOutOfRangeIsNop`, `UncheckedOutOfRangeFaults`, `SetThenGet`, `PixelWriteFrame`: just
outside each edge (part 2.2); the first two have an index inside the store. -/
theorem test_witness_invalid : State.reset.valid 4 0 = false ∧ State.reset.valid (-1) 1 = false ∧
    State.reset.valid 0 3 = false ∧ State.reset.valid 0 (-1) = false ∧
    State.reset.valid 1 1073741824 = false := by decide

/-- `PixelWriteFrame`: a write that goes on inside, one outside, and a byte of another pixel. -/
theorem test_witness_frame :
    (∃ t, exec (Instr.wpx .none .unchecked 3 2 ramp) State.reset = .next t) ∧
      (∃ t, exec (Instr.wpx .alpha .checked 4 0 ramp) State.reset = .next t) ∧
      175 < 16 * (State.reset.index 3 2).toNat :=
  ⟨goes_on (by decide) _ _ _,
    ⟨_, (exec_wpx .alpha .checked 4 0 ramp State.reset).trans
      (State.pixelWrite_checked_invalid (by decide) .alpha ramp)⟩, by decide⟩

/-- `OpacityReadByAlphaOnly`: an Add, which is neither Alpha nor SETOPA, and goes on. -/
theorem test_witness_opacity_unread :
    (∀ x y c, Instr.wpxAddC 0 0 ramp ≠ .wpxAlphaC x y c ∧
      Instr.wpxAddC 0 0 ramp ≠ .wpxAlphaU x y c) ∧ (∀ u, Instr.wpxAddC 0 0 ramp ≠ .setopa u) ∧
    ∃ t, exec (.wpxAddC 0 0 ramp) State.reset = .next t :=
  ⟨fun _ _ _ => ⟨nofun, nofun⟩, nofun,
    goes_on (by decide) .add .checked ramp⟩

/-- `OpacityWriters`: a SETOPA and a reset that each change the register. -/
theorem test_witness_opacity_writers :
    (next? (step (withInput (.command 1 (encode (.setopa half)))))).map (·.opacity) = some half ∧
      (withInput (.command 1 (encode (.setopa half)))).opacity ≠ half ∧
      (next? (step { withInput .reset with opacity := half })).map (·.opacity) = some one ∧
      one ≠ half := by decide +kernel

/-- `NoneWritesOrder`: two different pixels, and one pixel twice. -/
theorem test_witness_order : Memory.wf State.reset.store ∧ State.reset.valid 3 2 = true ∧
    State.reset.valid 0 0 = true ∧ State.reset.index 3 2 ≠ State.reset.index 0 0 ∧
    State.reset.index 3 2 = State.reset.index 3 2 :=
  ⟨Memory.wf_nil, by decide, by decide, by decide, rfl⟩

/-- `FillSetsEveryPixel`: the last pixel, and the first byte beyond the store. -/
theorem test_witness_fill : Memory.wf State.reset.store ∧ 11 < State.reset.length ∧
    16 * State.reset.length ≤ 192 := ⟨Memory.wf_nil, by decide, by decide⟩

/-- `MulIsRoundedProduct`: each class of operands; the largest finite product and the least that
overflows. -/
theorem test_witness_mul :
    F32.isNaN 0x7F800001#32 = true ∧
      (F32.isInf 0x7F800000#32 = true ∧ F32.isZero 0x80000000#32 = true) ∧
      (F32.isNaN 0x00000001#32 = false ∧ F32.isZero 0x00000001#32 = false ∧
        F32.isNaN 0xFF800000#32 = false ∧ F32.isZero 0xFF800000#32 = false ∧
        F32.isInf 0xFF800000#32 = true) ∧
      (F32.isFinite 0x7F7FFFFF#32 = true ∧ F32.isFinite 0x3F800000#32 = true ∧
        F32.isFinite 0x3F800001#32 = true) ∧
      (F32.exact 0x7F7FFFFF#32 * F32.exact 0x3F800000#32).natAbs < F32.overflowBound * 2 ^ 149 ∧
      ¬ (F32.exact 0x7F7FFFFF#32 * F32.exact 0x3F800001#32).natAbs <
        F32.overflowBound * 2 ^ 149 := by decide +kernel

/-- `AddIsRoundedSum`: each class of operands; an exact zero, a finite sum, an overflow. -/
theorem test_witness_add :
    (F32.isInf 0x7F800000#32 = true ∧ F32.isInf 0xFF800000#32 = true ∧
      F32.sign 0x7F800000#32 ≠ F32.sign 0xFF800000#32) ∧
      F32.isNaN 0x7F7FFFFF#32 = false ∧ F32.isFinite 0x7F7FFFFF#32 = true ∧
      F32.isFinite 0xFF7FFFFF#32 = true ∧
      F32.exact 0x7F7FFFFF#32 + F32.exact 0xFF7FFFFF#32 = 0 ∧
      F32.exact 0x00000001#32 + F32.exact 0xFF7FFFFF#32 ≠ 0 ∧
      (F32.exact 0x00000001#32 + F32.exact 0xFF7FFFFF#32).natAbs < F32.overflowBound ∧
      ¬ (F32.exact 0x7F7FFFFF#32 + F32.exact 0x7F7FFFFF#32).natAbs < F32.overflowBound := by
  decide +kernel

/-- `GreaterIsRealOrder`: a NaN, two finite values, an infinity of each sign. -/
theorem test_witness_greater : F32.isNaN 0xFFC00001#32 = true ∧
    F32.isFinite 0x00000001#32 = true ∧ F32.isFinite 0x80000001#32 = true ∧
    F32.exact 0x80000001#32 < F32.exact 0x00000001#32 ∧
    (F32.isInf 0x7F800000#32 = true ∧ F32.sign 0x7F800000#32 = false) ∧
    (F32.isInf 0xFF800000#32 = true ∧ F32.sign 0xFF800000#32 = true) := by decide +kernel

/-- `ComputedNaNIsDrawn`: two pixels of four NaNs, not all alike. -/
theorem test_witness_nans : Pixel.AllNaN nans ∧
    Pixel.AllNaN ⟨0xFFFFFFFF#32, 0xFFFFFFFF#32, 0xFFFFFFFF#32, 0xFFFFFFFF#32⟩ := by
  refine ⟨⟨?_, ?_, ?_, ?_⟩, ?_, ?_, ?_, ?_⟩ <;> decide

/-- `OpacityOneIsNeutral`: the last value before the NaNs, infinity itself. -/
theorem test_witness_opacity_one : F32.isNaN 0x7F800000#32 = false ∧
    F32.isNaN 0x80000001#32 = false := by decide

/-- `OpaqueAlphaIsSource`: an opaque source with an infinite channel over finite channels. -/
theorem test_witness_opaque :
    (⟨0x7F800000#32, 0, half, 0x3F800000#32⟩ : Pixel).a = 0x3F800000#32 ∧
      (F32.isFinite 0x7F7FFFFF#32 = true ∧ F32.isFinite 0x80000000#32 = true) ∧
      (F32.isNaN 0x7F800000#32 = false ∧ F32.isNaN 0 = false ∧ F32.isNaN half = false) ∧
      ((0x7F800000#32 : F32) ≠ 0x80000000#32 ∧ (0 : F32) ≠ 0x80000000#32 ∧
        half ≠ 0x80000000#32) := by decide

/-- `TransparentAlphaIsDestination`: an effective alpha that is a zero of either sign, and a
destination with an infinite channel. -/
theorem test_witness_transparent :
    F32.isZero (fmul 0x7FC00000#32 0x00000000#32 0x3F800000#32) = true ∧
      F32.isZero (fmul 0x7FC00000#32 0x80000000#32 0x3F800000#32) = true ∧
      F32.isFinite 0x7F7FFFFF#32 = true ∧ F32.isNaN 0x7F800000#32 = false ∧
      (0x7F800000#32 : F32) ≠ 0x80000000#32 := by decide +kernel

/-- `NaNAlphaSpreads`: a NaN alpha, a NaN opacity. -/
theorem test_witness_nan_alpha : F32.isNaN nans.a = true ∧ F32.isNaN nans.b = true := by decide

/-- `AddOfZeroAlphaKeepsColour`: a transparent source of finite colours over an infinite one. -/
theorem test_witness_add_zero : (⟨one, half, quarter, 0⟩ : Pixel).a = 0x00000000#32 ∧
    (F32.isFinite one = true ∧ F32.isFinite half = true ∧ F32.isFinite quarter = true) ∧
    (F32.isNaN 0x7F800000#32 = false ∧ F32.isNaN 0 = false) ∧
    ((0x7F800000#32 : F32) ≠ 0x80000000#32 ∧ (0 : F32) ≠ 0x80000000#32) := by decide

end Sys2Proof.Tests
end

section
/-! The dimensions of an instance (spec/10_state.md R11): no command and no step changes them, and
an instance with a zero dimension has no pixel to write or read. -/

namespace Sys2Proof.Machine

/-! ## No step changes a dimension -/

/-- A command that goes on keeps the dimensions (R11). -/
theorem exec_keeps_dims {i : Instr} {s t : State} (h : exec i s = .next t) :
    t.width = s.width ∧ t.height = s.height ∧ t.length = s.length := by
  rcases exec_next_cases h with
    ⟨mode, bounds, x, y, c, -, hw⟩ | ⟨x, y, border, -, rfl⟩ | ⟨v, -, rfl⟩ | ⟨v, -, rfl⟩
  · rcases State.pixelWrite_next_effect hw with rfl | ⟨-, p, rfl⟩ <;> simp
  all_goals simp

/-- A step that goes on keeps the dimensions, `rst` included (R11, R126). -/
theorem step_keeps_dims {s t : State} (h : step s = .next t) :
    t.width = s.width ∧ t.height = s.height ∧ t.length = s.length := by
  rcases step_next_cases h with ⟨-, rfl⟩ | ⟨-, rfl⟩ | ⟨n, w, i, u, -, -, hu, rfl⟩
  · simp
  · simp
  · simpa using exec_keeps_dims hu

/-! ## A zero dimension -/

theorem dimsOk_zero_left {h : Nat} (hh : h < 2 ^ 31) : dimsOk 0 h := ⟨by decide, hh, by simp⟩

theorem dimsOk_zero_right {w : Nat} (hw : w < 2 ^ 31) : dimsOk w 0 := ⟨hw, by decide, by simp⟩

/-- `LENGTH = WIDTH * HEIGHT` is zero where a dimension is (R11). -/
theorem State.length_eq_zero_of_zero_dim {s : State} (hl : s.length = s.width * s.height)
    (hz : s.width = 0 ∨ s.height = 0) : s.length = 0 := by
  rw [hl, Nat.mul_eq_zero]; exact hz

/-! An empty store: `LENGTH = 0`. -/

section
variable {s : State} (h0 : s.length = 0)
include h0

/-- No coordinates are valid in an empty store (R26). -/
theorem State.valid_eq_false_of_length_eq_zero (x y : Int) : s.valid x y = false := by
  rw [Bool.eq_false_iff]
  intro hv
  have hlt := State.place_lt hv
  omega

theorem exec_fill_of_length_eq_zero (v : Pixel) : exec (.fill v) s = .next s := by
  have hstore : Memory.fill v s.length s.store = s.store := by rw [h0, Memory.fill]
  calc exec (.fill v) s = .next (s.fillStore v) := rfl
    _ = .next s := by rw [State.fillStore, hstore]

theorem exec_checked_of_length_eq_zero (mode : BlendMode) (x y : Int) (c : Pixel) :
    exec (Instr.wpx mode .checked x y c) s = .next s := by
  rw [exec_wpx]
  exact State.pixelWrite_checked_invalid (State.valid_eq_false_of_length_eq_zero h0 x y) mode c

theorem exec_get_of_length_eq_zero (x y : Int) (border : Pixel) :
    exec (.get x y border) s = .next (s.respond border) := by
  have hborder : s.fetched x y border = border := by
    simp [State.fetched, State.valid_eq_false_of_length_eq_zero h0 x y]
  calc exec (.get x y border) s = .next (s.respond (s.fetched x y border)) := rfl
    _ = .next (s.respond border) := by rw [hborder]

end

/-- Settles O12: a step is a reset, an idle edge or a command, and each keeps the dimensions; with
a zero dimension `LENGTH` is 0, so that no coordinates are valid and FILL has no pixel to write. -/
theorem dimensionsFixed : Obligations.DimensionsFixed := by
  refine ⟨fun s t h => step_keeps_dims h, fun h hh => ⟨dimsOk_zero_left hh, dimsOk_zero_right hh⟩,
    fun s hl hz => ?_⟩
  have h0 : s.length = 0 := State.length_eq_zero_of_zero_dim hl hz
  have hcheck := exec_checked_of_length_eq_zero h0
  exact ⟨h0, exec_fill_of_length_eq_zero h0, fun x y c => ⟨hcheck .none x y c, hcheck .add x y c,
    hcheck .alpha x y c, hcheck .clip x y c, exec_get_of_length_eq_zero h0 x y c⟩⟩

end Sys2Proof.Machine
end

section
/-! PROOFS. The rectangle of valid coordinates and the numbering of its pixels (spec/20_memory.md
R25 to R27). -/

namespace Sys2Proof.Machine

theorem State.valid_iff {s : State} {x y : Int} : s.valid x y = true ↔
    (0 ≤ x ∧ x < s.width) ∧ 0 ≤ s.index x y ∧ s.index x y < s.length := by
  rw [State.valid, decide_eq_true_eq, and_assoc]

/-! In row-major order, division by `WIDTH` reads coordinates off an index (R25). -/

section
variable {s : State} {x : Int} (hx : 0 ≤ x ∧ x < s.width) (y : Int)
include hx

theorem State.index_emod_width : s.index x y % s.width = x := by
  rw [State.index, Int.add_mul_emod_self_right, Int.emod_eq_of_lt hx.1 hx.2]

theorem State.index_ediv_width : s.index x y / s.width = y := by
  have hw : (s.width : Int) ≠ 0 := by omega
  rw [State.index, Int.add_mul_ediv_right _ _ hw, Int.ediv_eq_zero_of_lt hx.1 hx.2, zero_add]

theorem State.index_nonneg_iff : 0 ≤ s.index x y ↔ 0 ≤ y := by
  have hw : (0 : Int) < s.width := by omega
  rw [← Int.ediv_nonneg_iff_of_pos hw, State.index_ediv_width hx]

theorem State.index_lt_length_iff (hl : s.length = s.width * s.height) :
    s.index x y < s.length ↔ y < s.height := by
  have hw : (0 : Int) < s.width := by omega
  rw [hl, Nat.cast_mul, mul_comm, ← Int.ediv_lt_iff_lt_mul hw, State.index_ediv_width hx]

end

/-- `valid` is the rectangle: the bounds on the index bound the row (R27). -/
theorem State.valid_iff_rectangle {s : State} (hl : s.length = s.width * s.height) (x y : Int) :
    s.valid x y = true ↔ (0 ≤ x ∧ x < s.width) ∧ 0 ≤ y ∧ y < s.height := by
  rw [State.valid_iff]
  refine and_congr_right fun hx => ?_
  rw [State.index_nonneg_iff hx, State.index_lt_length_iff hx y hl]

/-- Distinct valid coordinates never share a pixel (R27). -/
theorem State.index_injective_of_valid {s : State} {x y x' y' : Int} (h : s.valid x y = true)
    (h' : s.valid x' y' = true) (he : s.index x y = s.index x' y') : x = x' ∧ y = y' := by
  obtain ⟨hx, -⟩ := State.valid_iff.mp h
  obtain ⟨hx', -⟩ := State.valid_iff.mp h'
  constructor
  · rw [← State.index_emod_width hx y, he, State.index_emod_width hx' y']
  · rw [← State.index_ediv_width hx y, he, State.index_ediv_width hx' y']

theorem State.index_emod_ediv (s : State) (i : Int) :
    s.index (i % s.width) (i / s.width) = i := by
  rw [State.index, Int.emod_add_ediv_mul]

/-- The remainder and the quotient by `WIDTH` of an index inside the store are valid (R27). -/
theorem State.valid_emod_ediv {s : State} (hl : s.length = s.width * s.height) {idx : Nat}
    (hidx : idx < s.length) : s.valid ((idx : Int) % s.width) ((idx : Int) / s.width) = true := by
  have hw : (0 : Int) < s.width := by
    rw [hl] at hidx
    exact Int.natCast_pos.mpr (Nat.pos_of_mul_pos_right (Nat.zero_lt_of_lt hidx))
  rw [State.valid_iff, State.index_emod_ediv]
  exact ⟨⟨Int.emod_nonneg _ hw.ne', Int.emod_lt_of_pos _ hw⟩, by omega, by omega⟩

/-- Settles O8: on the columns `0 .. WIDTH-1`, quotient and remainder by `WIDTH` invert `index`, so
the bounds on the index are those on the row, and every index is met exactly once. -/
theorem validIsRectangle : Obligations.ValidIsRectangle := fun s hl =>
  ⟨State.valid_iff_rectangle hl, fun _ _ _ _ => State.index_injective_of_valid,
    fun idx hidx => ⟨idx % s.width, idx / s.width, State.valid_emod_ediv hl hidx,
      State.index_emod_ediv s idx⟩⟩

end Sys2Proof.Machine
end

section
/-! PROOFS. Which command words are reserved, and that exactly those are refused
(spec/30_encoding.md R44, R48). -/

namespace Sys2Proof.Machine

/-! ## The opcode map (R44) -/

/-- Every opcode below `0xB` is a command's. -/
theorem decodeOp_ok_of_lt {op : BitVec 4} (h : op.toNat < 0xB) (x y : Int) (c : Pixel) :
    ∃ i, decodeOp op x y c = .ok i := by
  unfold decodeOp
  generalize op.toNat = n at h ⊢
  interval_cases n <;> exact ⟨_, rfl⟩

/-- No opcode from `0xB` on is a command's. -/
theorem decodeOp_error_of_le {op : BitVec 4} (h : 0xB ≤ op.toNat) (x y : Int) (c : Pixel) :
    decodeOp op x y c = .error (.opcode op) := by
  unfold decodeOp
  split
  case h_12 => rfl
  all_goals omega

theorem decodeOp_error_iff {op : BitVec 4} {x y : Int} {c : Pixel} :
    (∃ why, decodeOp op x y c = .error why) ↔ 0xB ≤ op.toNat := by
  refine ⟨fun ⟨why, hwhy⟩ => ?_, fun h => ⟨_, decodeOp_error_of_le h ..⟩⟩
  by_contra hlt
  obtain ⟨i, hi⟩ := decodeOp_ok_of_lt (not_le.1 hlt) x y c
  cases hi.symm.trans hwhy

/-! ## The decoder (R48) -/

section
variable {w : CmdWord}

/-- A word is reserved exactly when a reason of R48 applies, whichever of them is reported. -/
theorem decode_error_iff :
    (∃ why, decode w = .error why) ↔ 0xB ≤ w.op.toNat ∨ w.z0 ≠ 0 ∨ w.z1 ≠ 0 := by
  by_cases h0 : w.z0 = 0
  · by_cases h1 : w.z1 = 0
    · rw [decode_of_zeros h0 h1, decodeOp_error_iff]
      simp [h0, h1]
    · rw [decode, if_neg (not_not.2 h0), if_pos h1]
      exact iff_of_true ⟨_, rfl⟩ (.inr (.inr h1))
  · rw [decode, if_pos h0]
    exact iff_of_true ⟨_, rfl⟩ (.inr (.inl h0))

/-- Decoding has no third outcome. -/
theorem decode_ok_iff_not_error : (∃ i, decode w = .ok i) ↔ ¬ ∃ why, decode w = .error why := by
  cases decode w <;> simp

/-- A word is a command exactly when no reason of R48 applies. -/
theorem decode_ok_iff :
    (∃ i, decode w = .ok i) ↔ w.op.toNat < 0xB ∧ w.z0 = 0 ∧ w.z1 = 0 := by
  rw [decode_ok_iff_not_error, decode_error_iff]
  simp only [not_or, not_le, not_not]

/-- Only the decoder refuses a word: no command is refused once it is decoded (R48, R114). -/
theorem runWord_refused_iff {s : State} :
    (∃ r, runWord w s = .refused r) ↔ ∃ why, decode w = .error why := by
  rw [runWord]
  cases decode w with
  | ok i => simp [exec_not_refused]
  | error why => simp

end

/-- Settles O3: a non-zero `z0` or `z1` alone makes a word reserved; where both are zero the opcode
map decides; and a word is refused only by the decoder. -/
theorem reservedWordsExactly : Obligations.ReservedWordsExactly :=
  ⟨fun _ => decode_error_iff, fun _ => decode_ok_iff,
    fun _ _ => runWord_refused_iff.trans decode_error_iff⟩

end Sys2Proof.Machine
end

section
/-! PROOFS. The eight pixel writes (spec/40_pixel_write.md R68 to R82): what each leaves on valid
coordinates, the fault of the unchecked ones elsewhere, and the dispatcher. -/

namespace Sys2Proof.Machine

/-! ## The dispatcher (R50, R81) -/

theorem decodeOp_of_codes {mode : BlendMode} {bounds : BoundsMode} {op : BitVec 4}
    (h : op.toNat = 4 * bounds.code.toNat + mode.code.toNat) (x y : Int) (c : Pixel) :
    decodeOp op x y c = .ok (Instr.wpx mode bounds x y c) := by
  rw [decodeOp, h]
  cases bounds <;> cases mode <;> rfl

/-- Settles O5: the opcode map sends `4 * bounds + mode` to the primitive the two modes name. -/
theorem dispatcherIsNamedPrimitive : Obligations.DispatcherIsNamedPrimitive := by
  intro mode bounds w s h0 h1 hop
  have hdecode : decode w = .ok (Instr.wpx mode bounds w.x w.y w.colour) := by
    rw [decode_of_zeros h0 h1, decodeOp_of_codes hop]
  rw [runWord, hdecode]
  rfl

/-! ## On valid coordinates -/

/-- A pixel written at `idx` replaces that pixel only, the draw counter apart (R29). -/
theorem State.replaced_memWrite {s : State} (hs : Memory.wf s.store) (mode : BlendMode)
    (idx : Nat) (p : Pixel) : s.Replaced ((s.memWrite idx p).afterBlend mode) idx p := by
  refine ⟨?_, ?_, fun a ha => ?_⟩
  · cases mode <;> rfl
  · rw [State.memRead_congr (State.afterBlend_store _ mode), State.memRead_memWrite_same hs]
  · rw [State.afterBlend_store, State.memWrite_store, Memory.read_writePixel_other _ p (by omega)]

section
variable {s : State} {x y : Int} (hv : s.valid x y = true) {mode : BlendMode} {c : Pixel}
include hv

theorem exec_wpx_valid (bounds : BoundsMode) : exec (Instr.wpx mode bounds x y c) s =
    .next (s.blendAt mode (s.place x y) c) := by
  rw [exec_wpx, State.pixelWrite_valid hv]

/-- Where the blend function has a result, both bounds modes store it and nothing else (R68). -/
theorem exec_wpx_replaces (hs : Memory.wf s.store) {p : Pixel}
    (hp : s.blend mode c (s.memRead (s.index x y).toNat) = some p) :
    ∃ t, exec (Instr.wpx mode .checked x y c) s = .next t ∧
      exec (Instr.wpx mode .unchecked x y c) s = .next t ∧ s.Replaced t (s.index x y).toNat p := by
  refine ⟨_, exec_wpx_valid hv .checked, exec_wpx_valid hv .unchecked, ?_⟩
  rw [State.place, State.blendAt, hp]
  exact State.replaced_memWrite hs mode _ p

/-- Where the blend function answers KEEP, a pixel write changes nothing (R68, R72). -/
theorem exec_wpx_keeps (hk : s.blend mode c (s.memRead (s.index x y).toNat) = none)
    (bounds : BoundsMode) : exec (Instr.wpx mode bounds x y c) s = .next s := by
  rw [exec_wpx_valid hv, State.place, State.blendAt, hk]

end

/-- The NaNs of a draw are NaNs (R65). -/
theorem allNaN_freeNaNs (draw : Nat) : Pixel.AllNaN (freeNaNs draw) :=
  ⟨F32.isNaN_freeNaN draw 0, F32.isNaN_freeNaN draw 1, F32.isNaN_freeNaN draw 2,
    F32.isNaN_freeNaN draw 3⟩

/-- Settles O20: the blend function of None is the source itself. -/
theorem noneReplacesPixel : Obligations.NoneReplacesPixel :=
  fun _ _ _ _ hs hv => exec_wpx_replaces hv (mode := .none) hs rfl

/-- Settles O21: the channels that compute to NaN take the NaNs of the state's own draw. -/
theorem addBlendsPixel : Obligations.AddBlendsPixel := by
  intro s x y c hs hv d
  obtain ⟨t, hchecked, hunchecked, ht⟩ := exec_wpx_replaces hv (mode := .add) (c := c) hs rfl
  exact ⟨freeNaNs s.draws, t, allNaN_freeNaNs _, hchecked, hunchecked, ht⟩

/-- Settles O22: as for Add; `na` is the one difference both lanes and alpha share. -/
theorem alphaBlendsPixel : Obligations.AlphaBlendsPixel := by
  intro s x y c hs hv d
  obtain ⟨t, hchecked, hunchecked, ht⟩ := exec_wpx_replaces hv (mode := .alpha) (c := c) hs rfl
  exact ⟨freeNaNs s.draws, t, allNaN_freeNaNs _, hchecked, hunchecked, ht⟩

/-- Settles O23: the blend function of Clip answers the source where the alpha test passes and
KEEP where it fails. -/
theorem clipTestsAlpha : Obligations.ClipTestsAlpha := by
  intro s x y c hs hv
  split
  case isTrue hpass => exact exec_wpx_replaces hv (mode := .clip) hs (if_pos hpass)
  case isFalse hfail =>
    have hkeep := exec_wpx_keeps hv (mode := .clip) (c := c) (if_neg hfail)
    exact ⟨hkeep .checked, hkeep .unchecked⟩

/-! ## Out of range -/

/-- Settles O26: the bounds test comes before the blend, so that the mode and the colour do not
matter. -/
theorem uncheckedOutOfRangeFaults : Obligations.UncheckedOutOfRangeFaults := by
  intro s x y c hv
  have hfault (mode : BlendMode) := State.pixelWrite_unchecked_invalid hv mode c
  exact ⟨s.position, hfault .none, hfault .add, hfault .alpha, hfault .clip⟩

end Sys2Proof.Machine
end

section
/-! PROOFS. The binary32 operations are those of IEEE 754 (spec/40_pixel_write.md R61 to R64). -/

namespace Sys2Proof.Machine

/-! ## A rounded magnitude under a sign -/

/-- A magnitude from the overflow bound up is rounded to an infinity (R61). -/
theorem F32.isInf_ofSignBits_roundBits {k n : Nat} (s : Bool)
    (h : F32.overflowBound * 2 ^ k ≤ n) : F32.isInf (F32.ofSignBits s (roundBits k n)) = true := by
  rw [F32.isInf_iff, F32.low_ofSignBits _ (roundBits_lt k n), roundBits_inf_iff]
  exact h

/-- Both outcomes of rounding the exact value `v` under a sign that is its own, or any sign where
`v` is 0 (R61, R62). -/
theorem F32.rounded_ofSignBits {k : Nat} {v : Int} {s : Bool} (hneg : v < 0 → s = true)
    (hpos : 0 < v → s = false) :
    if v.natAbs < F32.overflowBound * 2 ^ k then
      F32.RoundsTo k v (F32.ofSignBits s (roundBits k v.natAbs))
    else F32.isInf (F32.ofSignBits s (roundBits k v.natAbs)) = true := by
  split
  case isTrue h => exact F32.roundsTo_ofSignBits hneg hpos h
  case isFalse h => exact F32.isInf_ofSignBits_roundBits s (not_lt.1 h)

/-! ## The product (R61) -/

theorem F32.exact_nonpos {v : F32} (h : F32.sign v = true) : F32.exact v ≤ 0 := by
  rw [F32.exact_of_neg h]; omega

theorem F32.exact_nonneg {v : F32} (h : F32.sign v = false) : 0 ≤ F32.exact v := by
  rw [F32.exact_of_pos h]; omega

/-- A zero factor leaves no strict sign, so the sign rule of a product is `≤` only (R61). -/
theorem F32.exact_mul_nonpos {a b : F32} (h : (F32.sign a ^^ F32.sign b) = true) :
    F32.exact a * F32.exact b ≤ 0 := by
  cases ha : F32.sign a <;> cases hb : F32.sign b <;> simp only [ha, hb] at h
  · cases h
  · exact mul_nonpos_of_nonneg_of_nonpos (F32.exact_nonneg ha) (F32.exact_nonpos hb)
  · exact mul_nonpos_of_nonpos_of_nonneg (F32.exact_nonpos ha) (F32.exact_nonneg hb)
  · cases h

theorem F32.exact_mul_nonneg {a b : F32} (h : (F32.sign a ^^ F32.sign b) = false) :
    0 ≤ F32.exact a * F32.exact b := by
  cases ha : F32.sign a <;> cases hb : F32.sign b <;> simp only [ha, hb] at h
  · exact mul_nonneg (F32.exact_nonneg ha) (F32.exact_nonneg hb)
  · cases h
  · cases h
  · exact mul_nonneg_of_nonpos_of_nonpos (F32.exact_nonpos ha) (F32.exact_nonpos hb)

theorem fmul_finite_exact {n a b : F32} (ha : F32.isFinite a = true) (hb : F32.isFinite b = true) :
    fmul n a b = F32.ofSignBits (F32.sign a ^^ F32.sign b)
      (roundBits 149 (F32.exact a * F32.exact b).natAbs) := by
  rw [fmul_finite ha hb, Int.natAbs_mul, F32.exact_natAbs, F32.exact_natAbs]

/-- Settles O42: the exclusive-or of the signs is the sign of the exact product, so that rounding
its magnitude rounds the product. -/
theorem mulIsRoundedProduct : Obligations.MulIsRoundedProduct := by
  intro n a b
  refine ⟨?nan, fun ha hb hza hzb hi => ?inf, fun ha hb => ?finite⟩
  case nan =>
    rintro (h | h | h | h)
    · exact fmul_nan (.inl h)
    · exact fmul_nan (.inr h)
    · exact fmul_inf_zero (.inl h)
    · exact fmul_inf_zero (.inr h)
  case inf =>
    rw [fmul_inf ha hb hi hza hzb, F32.isInf_iff, F32.low_ofSignBits _ (by decide)]
    exact ⟨rfl, F32.sign_ofSignBits _ _⟩
  case finite =>
    rw [fmul_finite_exact ha hb]
    refine ⟨F32.sign_ofSignBits _ _, F32.rounded_ofSignBits (fun hneg => ?_) fun hpos => ?_⟩
    · exact Bool.of_not_eq_false fun hs => hneg.not_ge (F32.exact_mul_nonneg hs)
    · exact Bool.of_not_eq_true fun hs => hpos.not_ge (F32.exact_mul_nonpos hs)

/-! ## The sum (R62) -/

/-- The sign of a sum of finite values: its own, and `-0.0` only from two negative operands. -/
def F32.sumSign (a b : F32) : Bool :=
  if F32.exact a + F32.exact b = 0 then F32.sign a && F32.sign b
  else decide (F32.exact a + F32.exact b < 0)

theorem F32.sumSign_of_zero {a b : F32} (h : F32.exact a + F32.exact b = 0) :
    F32.sumSign a b = (F32.sign a && F32.sign b) := if_pos h

theorem F32.sumSign_of_ne_zero {a b : F32} (h : F32.exact a + F32.exact b ≠ 0) :
    F32.sumSign a b = decide (F32.exact a + F32.exact b < 0) := if_neg h

/-- A zero sum is rounded like any other, to the lower bits 0. -/
theorem fadd_finite_exact {n a b : F32} (ha : F32.isFinite a = true) (hb : F32.isFinite b = true) :
    fadd n a b = F32.ofSignBits (F32.sumSign a b)
      (roundBits 0 (F32.exact a + F32.exact b).natAbs) := by
  rw [fadd_finite ha hb, F32.sumSign]
  split
  case isTrue h => rw [h, Int.natAbs_zero, roundBits_zero]
  case isFalse => rfl

/-- Two negative values add up to zero only where both are `-0.0`. -/
theorem F32.isZero_of_neg_sum {a b : F32} (h : F32.exact a + F32.exact b = 0)
    (ha : F32.sign a = true) (hb : F32.sign b = true) :
    F32.isZero a = true ∧ F32.isZero b = true := by
  rw [F32.exact_of_neg ha, F32.exact_of_neg hb] at h
  rw [← F32.magnitude_eq_zero, ← F32.magnitude_eq_zero]
  omega

/-- An infinity is determined by its sign. -/
theorem F32.eq_of_isInf {a b : F32} (ha : F32.isInf a = true) (hb : F32.isInf b = true)
    (hs : F32.sign a = F32.sign b) : a = b :=
  F32.ext hs (((F32.isInf_iff a).1 ha).trans ((F32.isInf_iff b).1 hb).symm)

/-- An infinity on the right is the sum, unless the left is a NaN or the other infinity. -/
theorem fadd_right_isInf {n a b : F32} (ha : F32.isInf a = true) (hb : F32.isNaN b = false)
    (hs : F32.isInf b = true → F32.sign a = F32.sign b) : fadd n b a = a := by
  rcases F32.isFinite_or_isInf hb with hfin | hinf
  · exact fadd_inf_right hfin ha
  · obtain rfl := F32.eq_of_isInf ha hinf (hs hinf)
    exact fadd_inf_left ha hb hs

/-- Settles O43: the sign of a finite sum is that of the exact sum where it is not zero, so that
rounding its magnitude rounds the sum; the sign of a zero sum follows from `sumSign`. -/
theorem addIsRoundedSum : Obligations.AddIsRoundedSum := by
  intro n a b
  refine ⟨?nan, fun ha hb hs => ⟨fadd_inf_left ha hb hs, fadd_right_isInf ha hb hs⟩,
    fun ha hb => ?finite⟩
  case nan =>
    rintro (h | h | ⟨ha, hb, hs⟩)
    · exact fadd_nan (.inl h)
    · exact fadd_nan (.inr h)
    · exact fadd_inf_inf ha hb hs
  case finite =>
    rw [fadd_finite_exact ha hb, F32.sign_ofSignBits]
    refine ⟨fun h0 => ⟨?zero, ?zeroSign⟩, F32.sumSign_of_ne_zero, ?rounded⟩
    case zero =>
      rw [h0, Int.natAbs_zero, roundBits_zero, F32.isZero_iff, F32.low_ofSignBits _ (by decide)]
    case zeroSign =>
      rw [F32.sumSign_of_zero h0, Bool.and_eq_true]
      constructor
      · rintro ⟨sa, sb⟩
        obtain ⟨za, zb⟩ := F32.isZero_of_neg_sum h0 sa sb
        exact ⟨za, zb, sa, sb⟩
      · exact fun ⟨_, _, sa, sb⟩ => ⟨sa, sb⟩
    case rounded =>
      rw [← Nat.mul_one F32.overflowBound, ← Nat.pow_zero 2]
      refine F32.rounded_ofSignBits (fun hneg => ?_) fun hpos => ?_
      · rw [F32.sumSign_of_ne_zero (by omega)]; exact decide_eq_true hneg
      · rw [F32.sumSign_of_ne_zero (by omega)]; exact decide_eq_false (by omega)

/-! ## The difference (R63) -/

theorem F32.exact_negate (v : F32) : F32.exact (F32.negate v) = -F32.exact v := by
  rw [F32.exact, F32.exact, F32.magnitude_eq, F32.magnitude_eq, F32.low_negate, F32.sign_negate]
  cases F32.sign v <;> simp

theorem F32.isFinite_negate {v : F32} (h : F32.isFinite v = true) :
    F32.isFinite (F32.negate v) = true := by
  rw [F32.isFinite_iff, F32.low_negate, ← F32.isFinite_iff]
  exact h

/-- A finite value less itself is `+0.0`, whatever its sign (R62, R63). -/
theorem fsub_self {v : F32} (h : F32.isFinite v = true) (n : F32) : fsub n v v = 0#32 := by
  have h0 : F32.exact v + F32.exact (F32.negate v) = 0 := by
    rw [F32.exact_negate, add_neg_cancel]
  rw [fsub, fadd_finite h (F32.isFinite_negate h), if_pos h0, F32.sign_negate, Bool.and_not_self]
  rfl

/-- Settles O44: `F32.negate` inverts the sign bit alone. -/
theorem subIsAddNegated : Obligations.SubIsAddNegated :=
  ⟨fun _ _ b => ⟨F32.negate b, F32.sign_negate b, BitVec.eq_of_toNat_eq (F32.low_negate b),
    F32.exact_negate b, rfl⟩, fsub_self (by decide)⟩

/-! ## The order (R64) -/

theorem fgt_of_isNaN {a b : F32} (h : F32.isNaN a = true ∨ F32.isNaN b = true) :
    fgt a b = false := by
  rcases h with h | h <;> simp [fgt, h]

theorem fgt_eq_decide {a b : F32} (ha : F32.isNaN a = false) (hb : F32.isNaN b = false) :
    fgt a b = decide (F32.order b < F32.order a) := by
  simp [fgt, ha, hb]

/-- Larger lower bits are a larger magnitude, and conversely. -/
theorem F32.magnitude_lt_iff {a b : F32} (ha : F32.isFinite a = true)
    (hb : F32.isFinite b = true) : F32.magnitude a < F32.magnitude b ↔ F32.low a < F32.low b := by
  rw [F32.isFinite_iff] at ha hb
  rw [F32.magnitude_eq, F32.magnitude_eq]
  refine ⟨fun h => ?_, magnitudeOf_lt hb⟩
  by_contra hle
  rcases Nat.eq_or_lt_of_le (not_lt.1 hle) with he | hlt
  · rw [he] at h; exact Nat.lt_irrefl _ h
  · exact Nat.lt_asymm h (magnitudeOf_lt ha hlt)

theorem F32.magnitude_eq_zero_iff {v : F32} : F32.magnitude v = 0 ↔ F32.low v = 0 := by
  rw [F32.magnitude_eq_zero, F32.isZero_iff]

/-- The place of a finite value is that of its exact value: magnitudes are ordered as lower bits
are, and reversed under a minus sign; the two zeros share a place. -/
theorem F32.order_lt_iff {a b : F32} (ha : F32.isFinite a = true) (hb : F32.isFinite b = true) :
    F32.order b < F32.order a ↔ F32.exact b < F32.exact a := by
  have hab := F32.magnitude_lt_iff ha hb
  have hba := F32.magnitude_lt_iff hb ha
  have ha0 := F32.magnitude_eq_zero_iff (v := a)
  have hb0 := F32.magnitude_eq_zero_iff (v := b)
  rw [F32.order_eq, F32.order_eq, F32.exact, F32.exact]
  cases F32.sign a <;> cases F32.sign b <;>
    simp only [if_true, if_false, Bool.false_eq_true] <;> omega

/-- A finite value lies strictly between the places of the infinities. -/
theorem F32.order_of_isFinite {v : F32} (h : F32.isFinite v = true) :
    -(F32.infBits : Int) < F32.order v ∧ F32.order v < F32.infBits := by
  rw [F32.isFinite_iff] at h
  rw [F32.order_eq]
  split <;> omega

theorem F32.order_of_isInf {v : F32} (h : F32.isInf v = true) :
    F32.order v = if F32.sign v then -(F32.infBits : Int) else F32.infBits := by
  rw [F32.order_eq, (F32.isInf_iff v).1 h]

/-- Of two values that are no NaN, the one at the higher place is greater, and only it (R64). -/
theorem fgt_of_order_lt {a b : F32} (ha : F32.isNaN a = false) (hb : F32.isNaN b = false)
    (h : F32.order b < F32.order a) : fgt a b = true ∧ fgt b a = false := by
  rw [fgt_eq_decide ha hb, fgt_eq_decide hb ha]
  exact ⟨decide_eq_true h, decide_eq_false (by omega)⟩

theorem fgt_self (a : F32) : fgt a a = false := by
  simp [fgt]

/-- Settles O45: `F32.order` follows the exact values, with the infinities at its two ends. -/
theorem greaterIsRealOrder : Obligations.GreaterIsRealOrder := by
  intro a b
  refine ⟨fgt_of_isNaN, fgt_self a, fun ha hb => ?finite, fun ha hs hb => ?posInf,
    fun ha hs hb => ?negInf, by decide, by decide⟩
  case finite =>
    rw [fgt_eq_decide (F32.isNaN_of_isFinite ha) (F32.isNaN_of_isFinite hb), decide_eq_true_eq,
      F32.order_lt_iff ha hb]
  case posInf =>
    refine fgt_of_order_lt (F32.isNaN_of_isInf ha) (F32.isNaN_of_isFinite hb) ?_
    rw [F32.order_of_isInf ha, hs]
    exact (F32.order_of_isFinite hb).2
  case negInf =>
    refine (fgt_of_order_lt (F32.isNaN_of_isFinite hb) (F32.isNaN_of_isInf ha) ?_).symm
    rw [F32.order_of_isInf ha, hs]
    exact (F32.order_of_isFinite hb).1

end Sys2Proof.Machine
end

section
/-! PROOFS. The pixel-store commands GET, FILL and SETOPA and the pseudo-command SET
(spec/41_buffer_ops.md R90 to R94). -/

namespace Sys2Proof.Machine

/-! ## What each command answers -/

theorem exec_get (x y : Int) (border : Pixel) (s : State) :
    exec (.get x y border) s = .next (s.respond (s.fetched x y border)) := rfl

theorem exec_fill (v : Pixel) (s : State) : exec (.fill v) s = .next (s.fillStore v) := rfl

theorem exec_setopa (v : F32) (s : State) : exec (.setopa v) s = .next (s.setOpacity v) := rfl

/-- SET is the checked None write, so on valid coordinates it stores the value itself (R94). -/
theorem exec_set_of_valid {s : State} {x y : Int} (hv : s.valid x y = true) (v : Pixel) :
    exec (Instr.set x y v) s = .next (s.memWrite (s.place x y) v) :=
  exec_wpx_valid hv (mode := .none) .checked

theorem exec_set_of_invalid {s : State} {x y : Int} (hv : s.valid x y = false) (v : Pixel) :
    exec (Instr.set x y v) s = .next s :=
  State.pixelWrite_checked_invalid hv .none v

/-! ## What GET fetches (R90) -/

theorem State.fetched_of_valid {s : State} {x y : Int} (hv : s.valid x y = true) (b : Pixel) :
    s.fetched x y b = s.memRead (s.place x y) := if_pos hv

/-- The pixel just written at valid coordinates is what GET finds there, whatever its border. -/
theorem State.fetched_memWrite_place {s : State} (hs : Memory.wf s.store) {x y : Int}
    (hv : s.valid x y = true) (v b : Pixel) :
    (s.memWrite (s.place x y) v).fetched x y b = v := by
  have hv' : (s.memWrite (s.place x y) v).valid x y = true := hv
  rw [State.fetched_of_valid hv', State.place_memWrite, State.memRead_memWrite_same hs]

/-! ## Their words (R44) -/

theorem decode_of_op {w : CmdWord} (h0 : w.z0 = 0) (h1 : w.z1 = 0) {op : BitVec 4}
    (hop : w.op = op) : decode w = decodeOp op w.x w.y w.colour := by
  rw [decode_of_zeros h0 h1, hop]

/-! ## The statements -/

/-- Settles O34: the fill reaches every pixel below `LENGTH` (`State.memRead_fillStore`) and no
byte past them (`Memory.read_fill_outside`). -/
theorem fillSetsEveryPixel : Obligations.FillSetsEveryPixel := by
  refine ⟨fun w h0 h1 hop => decode_of_op h0 h1 hop, fun s v hs => ?_⟩
  refine ⟨s.fillStore v, exec_fill v s, rfl, fun idx => State.memRead_fillStore hs v,
    fun a ha => ?_⟩
  rw [State.fillStore_store, Memory.read_fill_outside _ _ _ (by omega)]

/-- Settles O36: on valid coordinates GET fetches what SET wrote; elsewhere SET is a checked write
out of range. -/
theorem setThenGet : Obligations.SetThenGet := by
  refine fun s x y v b => ⟨fun hs hv => ?_, fun hv => exec_set_of_invalid hv v⟩
  refine ⟨_, _, exec_set_of_valid hv v, exec_get x y b _, ?_⟩
  rw [State.respond_rsp, State.fetched_memWrite_place hs hv]

/-- Settles O33: opcode 8 is GET's, and GET's only write is the response it fetched. -/
theorem getResponds : Obligations.GetResponds :=
  ⟨fun _ h0 h1 hop => decode_of_op h0 h1 hop, fun s x y border => exec_get x y border s⟩

/-- Settles O35: opcode 10 is SETOPA's, and `cA` is the alpha of the colour fields. -/
theorem setopaWritesOpacity : Obligations.SetopaWritesOpacity :=
  ⟨fun _ h0 h1 hop => decode_of_op h0 h1 hop, fun s v => exec_setopa v s⟩

end Sys2Proof.Machine
end

section
/-! PROOFS. Decoding undoes encoding, and encoding undoes decoding but for the fields FILL and
SETOPA ignore (spec/30_encoding.md R42, R44, R46, R47); what assembler lines stand for (R52,
R53). -/

namespace Sys2Proof.Machine

/-! ## Encoding, then decoding -/

/-- The eight pixel writes are assembled alike; only the opcode, the selector, differs (R50). -/
theorem encode_wpx (mode : BlendMode) (bounds : BoundsMode) (x y : Int) (c : Pixel) :
    encode (Instr.wpx mode bounds x y c) = assembleXY (selector mode bounds) x y c := by
  cases bounds <;> cases mode <;> rfl

theorem wf_wpx (mode : BlendMode) (bounds : BoundsMode) (x y : Int) (c : Pixel) :
    (Instr.wpx mode bounds x y c).wf = coordsInRange x y := by
  cases bounds <;> cases mode <;> rfl

/-- The selector's bits are the two enumerator values (R49, R50). -/
theorem selector_toNat (mode : BlendMode) (bounds : BoundsMode) :
    (selector mode bounds).toNat = 4 * bounds.code.toNat + mode.code.toNat := by
  cases bounds <;> cases mode <;> rfl

theorem decodeOp_selector (mode : BlendMode) (bounds : BoundsMode) (x y : Int) (c : Pixel) :
    decodeOp (selector mode bounds) x y c = .ok (Instr.wpx mode bounds x y c) :=
  decodeOp_of_codes (selector_toNat mode bounds) x y c

/-- Expressible coordinates come back from their fields (R46). -/
theorem decode_assembleXY (op : BitVec 4) {x y : Int} (h : coordsInRange x y = true) (c : Pixel) :
    decode (assembleXY op x y c) = decodeOp op x y c := by
  rw [assembleXY, decode_assembleWord, coordField_toInt (coordsInRange_x h),
    coordField_toInt (coordsInRange_y h)]

/-- Settles O1: the opcode map inverts the selector, and the layout loses no field. -/
theorem decodeOfEncode : Obligations.DecodeOfEncode := by
  intro i hwf
  rcases Instr.eq_wpx_or i with
    ⟨mode, bounds, x, y, c, rfl⟩ | ⟨x, y, border, rfl⟩ | ⟨v, rfl⟩ | ⟨v, rfl⟩
  · rw [wf_wpx] at hwf
    rw [encode_wpx, decode_assembleXY _ hwf, decodeOp_selector]
  · exact decode_assembleXY 8 hwf border
  · exact decode_assembleWord 9 0 0 v
  · exact decode_assembleWord 10 0 0 ⟨0, 0, 0, v⟩

/-! ## Decoding, then encoding -/

/-- A word is its fields in the layout of R42. -/
theorem assembleWord_fields {w : CmdWord} (h0 : w.z0 = 0) (h1 : w.z1 = 0) :
    assembleWord w.op (w.extractLsb' 32 32) (w.extractLsb' 64 32) w.colour = w := by
  have hz0 : (0#28 : BitVec 28) = w.extractLsb' 4 28 := h0.symm
  have hz1 : (0#32 : BitVec 32) = w.extractLsb' 96 32 := h1.symm
  simp (disch := omega) only [assembleWord, CmdWord.op, CmdWord.colour, hz0, hz1,
    BitVec.extractLsb'_append_extractLsb'_eq_extractLsb']
  exact BitVec.extractLsb'_eq_self

/-- The coordinates a word holds are written back to the same fields (R46). -/
theorem assembleXY_fields {w : CmdWord} (h0 : w.z0 = 0) (h1 : w.z1 = 0) :
    assembleXY w.op w.x w.y w.colour = w := by
  rw [assembleXY, coordField, coordField, CmdWord.x, CmdWord.y, BitVec.ofInt_toInt,
    BitVec.ofInt_toInt, assembleWord_fields h0 h1]

theorem coordsInRange_fields (w : CmdWord) : coordsInRange w.x w.y = true := by
  rw [coordsInRange, CmdWord.x, CmdWord.y, coordInRange_toInt, coordInRange_toInt, Bool.and_self]

/-- The opcodes below 8 are the selectors (R44, R50). -/
theorem exists_selector_of_lt {op : BitVec 4} (h : op.toNat < 8) :
    ∃ mode bounds, op = selector mode bounds := by
  have hop : op = BitVec.ofNat 4 op.toNat := by rw [BitVec.ofNat_toNat, BitVec.setWidth_eq]
  generalize op.toNat = n at h hop
  subst hop
  interval_cases n
  · exact ⟨.none, .checked, rfl⟩
  · exact ⟨.add, .checked, rfl⟩
  · exact ⟨.alpha, .checked, rfl⟩
  · exact ⟨.clip, .checked, rfl⟩
  · exact ⟨.none, .unchecked, rfl⟩
  · exact ⟨.add, .unchecked, rfl⟩
  · exact ⟨.alpha, .unchecked, rfl⟩
  · exact ⟨.clip, .unchecked, rfl⟩

/-- Everything the opcode map can answer with a command (R44). -/
theorem decodeOp_ok_cases {op : BitVec 4} {x y : Int} {c : Pixel} {i : Instr}
    (h : decodeOp op x y c = .ok i) :
    (∃ mode bounds, op = selector mode bounds ∧ i = Instr.wpx mode bounds x y c) ∨
      (op = 8 ∧ i = .get x y c) ∨ (op = 9 ∧ i = .fill c) ∨ (op = 10 ∧ i = .setopa c.a) := by
  have hcommand : op.toNat < 0xB := by
    by_contra hge
    rw [decodeOp_error_of_le (not_lt.1 hge)] at h
    cases h
  have hop : op.toNat < 8 ∨ op = 8 ∨ op = 9 ∨ op = 10 := by bv_omega
  rcases hop with hlt | rfl | rfl | rfl
  · obtain ⟨mode, bounds, rfl⟩ := exists_selector_of_lt hlt
    rw [decodeOp_selector] at h
    cases h
    exact .inl ⟨mode, bounds, rfl, rfl⟩
  · cases h; exact .inr (.inl ⟨rfl, rfl⟩)
  · cases h; exact .inr (.inr (.inl ⟨rfl, rfl⟩))
  · cases h; exact .inr (.inr (.inr ⟨rfl, rfl⟩))

/-- Settles O2: a word whose must-be-zero fields are zero is its fields laid out again, and a
command that uses them all is encoded with the same ones. -/
theorem encodeOfDecode : Obligations.EncodeOfDecode := by
  intro w i h
  obtain ⟨-, h0, h1⟩ := decode_ok_iff.1 ⟨i, h⟩
  have hword := assembleWord_fields h0 h1
  have hwordXY := assembleXY_fields h0 h1
  have hcoords := coordsInRange_fields w
  rw [decode_of_zeros h0 h1] at h
  rcases decodeOp_ok_cases h with ⟨mode, bounds, hop, rfl⟩ | ⟨hop, rfl⟩ | ⟨hop, rfl⟩ | ⟨hop, rfl⟩
  case inl =>
    have hencode : encode (Instr.wpx mode bounds w.x w.y w.colour) = w := by
      rw [encode_wpx, ← hop, hwordXY]
    refine ⟨(wf_wpx ..).trans hcoords, ?_⟩
    cases mode <;> cases bounds <;> exact hencode
  all_goals rw [hop] at hword hwordXY
  · exact ⟨hcoords, hwordXY⟩
  · exact ⟨rfl, rfl, hword.symm⟩
  · exact ⟨rfl, rfl, hword.symm⟩

/-- Settles O4: the decoder run on each word. -/
theorem writtenWordsDecode : Obligations.WrittenWordsDecode := by
  unfold Obligations.WrittenWordsDecode
  decide

/-! ## Assembler lines (R52, R53) -/

/-- Settles O6: a line's command is the pseudo-command's expansion, and a pixel write's opcode is
the selector of its modes. -/
theorem pseudoCommandsExpand : Obligations.PseudoCommandsExpand := by
  refine ⟨fun _ => rfl, fun _ _ _ => rfl, fun mode bounds x y v => ⟨?_, rfl⟩⟩
  rw [AsmLine.word, AsmLine.command, encode_wpx, assembleXY, assembleWord_op, selector]

/-- Settles O7: the decimals rounded by the assembler. -/
theorem decimalConstants : Obligations.DecimalConstants := by
  unfold Obligations.DecimalConstants
  decide +kernel

end Sys2Proof.Machine
end

section
/-! PROOFS. What every step keeps, what reset leaves, and how a step runs what the host offers
(spec/10_state.md R9, R11, R17, R18, R23, spec/30_encoding.md R43, R45, R48, R126). -/

namespace Sys2Proof.Machine

/-! ## The canonical store (R9, R24) -/

theorem storeOk_nil (n : Nat) : storeOk [] n := ⟨Memory.wf_nil, by simp⟩

theorem storeOk_writePixel {m : List Host.Cell} {n idx : Nat} (hm : storeOk m n) (h : idx < n)
    (p : Pixel) : storeOk (Memory.writePixel m idx p) n := by
  obtain ⟨hwf, hlt⟩ := hm
  refine ⟨Memory.wf_writePixel hwf idx p, fun c hc => ?_⟩
  rcases Memory.mem_writePixel hc with hold | hnew
  · exact hlt c hold
  · omega

theorem storeOk_fill {m : List Host.Cell} {n : Nat} (hm : storeOk m n) (p : Pixel) :
    storeOk (Memory.fill p n m) n := by
  obtain ⟨hwf, hlt⟩ := hm
  refine ⟨Memory.wf_fill p n hwf, fun c hc => ?_⟩
  rcases Memory.mem_fill hc with hold | hnew
  · exact hlt c hold
  · omega

/-- A byte past the last pixel is unlisted. -/
theorem Memory.read_of_storeOk {m : List Host.Cell} {n a : Nat} (hm : storeOk m n)
    (h : 16 * n ≤ a) : Memory.read m a = Memory.unlisted a :=
  Memory.read_of_not_mem fun c hc => by have := hm.2 c hc; omega

/-- A store filled with `INIT_PIXEL` is the one nothing has been written to, as a list (R23). -/
theorem Memory.fill_initPixel {m : List Host.Cell} {n : Nat} (hm : storeOk m n) :
    Memory.fill Config.initPixel n m = [] := by
  have hwf : Memory.wf m := hm.1
  refine Memory.ext_of_read (Memory.wf_fill _ _ hwf) Memory.wf_nil fun a => ?_
  rw [Memory.read_fill _ _ hwf, Memory.read_nil]
  split
  case isTrue => rfl
  case isFalse h => exact Memory.read_of_storeOk hm (by omega)

/-! ## The invariant (R9, R11, R17) -/

/-- The invariant is about the dimensions and the store only. -/
theorem State.Inv.of_dims {s t : State} (hs : s.Inv)
    (hd : t.width = s.width ∧ t.height = s.height ∧ t.length = s.length)
    (ht : storeOk t.store t.length) : t.Inv := by
  obtain ⟨hw, hh, hl⟩ := hd
  exact ⟨by rw [hw, hh]; exact hs.dims, by rw [hw, hh, hl]; exact hs.length_eq, ht⟩

/-- A command that goes on keeps the store canonical and inside `LENGTH`. -/
theorem exec_keeps_storeOk {i : Instr} {s t : State} (hs : storeOk s.store s.length)
    (h : exec i s = .next t) : storeOk t.store s.length := by
  rcases exec_next_cases h with
    ⟨mode, bounds, x, y, c, -, hw⟩ | ⟨x, y, border, -, rfl⟩ | ⟨v, -, rfl⟩ | ⟨v, -, rfl⟩
  · rcases State.pixelWrite_next_effect hw with rfl | ⟨hv, p, rfl⟩
    · exact hs
    · rw [State.afterBlend_store, State.memWrite_store]
      exact storeOk_writePixel hs (State.place_lt hv) p
  · exact hs
  · exact storeOk_fill hs v
  · exact hs

/-- Settles O10: `rst` empties the store, an idle edge leaves it, and a command writes whole pixels
inside it; no step changes a dimension. -/
theorem stepKeepsInvariant : Obligations.StepKeepsInvariant := by
  intro s t hs h
  have hdims := step_keeps_dims h
  refine hs.of_dims hdims ?_
  obtain ⟨-, -, hlength⟩ := hdims
  rw [hlength]
  rcases step_next_cases h with ⟨-, rfl⟩ | ⟨-, rfl⟩ | ⟨n, w, i, u, -, -, hu, rfl⟩
  · exact hs.store
  · exact storeOk_nil s.length
  · exact exec_keeps_storeOk (s := s.endResponse) (t := u) hs.store hu

/-- Settles O11: reset fills an empty store. -/
theorem resetHasInvariant : Obligations.ResetHasInvariant :=
  ⟨⟨⟨by decide, by decide, by decide⟩, rfl, storeOk_nil _⟩,
    fun _ _ p _ hdims => ⟨hdims, rfl, storeOk_fill (storeOk_nil _) p⟩⟩

/-! ## Reset (R23, R126) -/

/-- Settles O13: the fill of `State.resetWith` reaches every pixel; `rst` leaves the store
nothing has been written to. -/
theorem resetState : Obligations.ResetState := by
  refine ⟨fun w h p inputs => ?resetWith, fun s hs => ⟨_, step_reset hs, ?rst⟩, rfl⟩
  case resetWith =>
    exact ⟨rfl, rfl, rfl, rfl, fun idx => Memory.readPixel_fill p Memory.wf_nil, rfl, rfl⟩
  case rst => exact ⟨rfl, rfl, rfl, rfl, fun idx _ => Memory.readPixel_nil idx, rfl, rfl⟩

/-- Settles O14: twelve pixels of `INIT_PIXEL` are an empty list of bytes. -/
theorem resetIsAnInstance : Obligations.ResetIsAnInstance := by
  have hstore : Memory.fill Config.initPixel (4 * 3) [] = [] :=
    Memory.fill_initPixel (storeOk_nil _)
  rw [Obligations.ResetIsAnInstance, State.resetWith, hstore]
  rfl

/-- Settles O15: `rst` is offered, so the step is the reset and the stream moves on. -/
theorem resetInput : Obligations.ResetInput := by
  intro s rest hin
  rw [step_reset (State.offered_cons s hin), State.advance, State.applyReset_inputs,
    State.endResponse_inputs, hin]
  rfl

/-! ## A step -/

/-- Where the stream's next entry is gone, `rest` is left (R43). -/
theorem State.advance_of_inputs {s : State} {i : Input} {rest : List Input}
    (h : s.inputs = i :: rest) : s.advance = { s with inputs := rest } := by
  rw [State.advance, h, List.tail_cons]

/-- A command leaves the stream alone, so what the step leaves of it is known beforehand. -/
theorem onNext_advance_exec {s : State} {j : Input} {rest : List Input} (h : s.inputs = j :: rest)
    (i : Instr) : onNext State.advance (exec i s) =
      onNext (fun t => { t with inputs := rest }) (exec i s) := by
  cases hi : exec i s with
  | next t => rw [onNext_next, onNext_next, State.advance_of_inputs ((exec_inputs hi).trans h)]
  | fault f => rfl
  | refused r => rfl

/-- The row pattern's word is what the decoder of the table reads. -/
theorem decode_tableWord {nbits w : Nat} {i : Instr} (h : decodeTableWord nbits w = some i) :
    decode (tableWord nbits w) = .ok i := by
  rw [decodeTableWord] at h
  cases hd : decode (tableWord nbits w) with
  | ok j => rw [hd] at h; cases h; rfl
  | error why => rw [hd] at h; cases h

/-- A step at which the stream's next entry decodes to `i` runs `i` (R43). -/
theorem step_of_decode {s : State} {n : Nat} {w : CmdWord} {rest : List Input} {i : Instr}
    (hin : s.inputs = .command n w :: rest) (hd : decode w = .ok i) :
    step s = onNext (fun t => { t with inputs := rest }) (exec i s.endResponse) := by
  rw [step_command (State.offered_cons s hin), runWord, hd]
  exact onNext_advance_exec (s := s.endResponse) hin i

/-- Settles O16: a word placed by `withFetchWord` is the next entry of the stream. -/
theorem stepRunsDecodedCommand : Obligations.StepRunsDecodedCommand :=
  ⟨fun _ _ _ _ _ hin hd => step_of_decode hin hd,
    fun s nbits w _ hd => step_of_decode (s := s.withFetchWord nbits w) rfl (decode_tableWord hd)⟩

/-- Settles O17: an empty stream stays empty. -/
theorem stepIdles : Obligations.StepIdles := by
  refine ⟨fun s hin => ?_, fun s rest hin => ?_⟩
  · rw [step_idle (State.offered_nil s hin), State.advance, State.endResponse_inputs, hin,
      State.endResponse, hin]
    rfl
  · rw [step_idle (State.offered_cons s hin), State.advance_of_inputs (s := s.endResponse) hin]
    rfl

/-! ## Stops (R48, R82, R112) -/

theorem State.pixelWrite_fault_iff {s : State} {mode : BlendMode} {bounds : BoundsMode} {x y : Int}
    {c : Pixel} {f : Fault} : s.pixelWrite mode bounds x y c = .fault f ↔
      bounds = .unchecked ∧ s.valid x y = false ∧ f = .uncheckedOutOfRange s.position x y := by
  refine ⟨State.pixelWrite_fault, ?_⟩
  rintro ⟨rfl, hv, rfl⟩
  exact State.pixelWrite_unchecked_invalid hv mode c

/-- Only an unchecked write out of range faults (R82, R110). -/
theorem exec_fault_iff {i : Instr} {s : State} {f : Fault} : exec i s = .fault f ↔
    ∃ mode x y c, i = Instr.wpx mode .unchecked x y c ∧ s.valid x y = false ∧
      f = .uncheckedOutOfRange s.position x y := by
  constructor
  · intro h
    rcases Instr.eq_wpx_or i with
      ⟨mode, bounds, x, y, c, rfl⟩ | ⟨x, y, border, rfl⟩ | ⟨v, rfl⟩ | ⟨v, rfl⟩
    · rw [exec_wpx] at h
      obtain ⟨rfl, hv, hf⟩ := State.pixelWrite_fault h
      exact ⟨mode, x, y, c, rfl, hv, hf⟩
    all_goals cases h
  · rintro ⟨mode, x, y, c, rfl, hv, rfl⟩
    rw [exec_wpx, State.pixelWrite_unchecked_invalid hv]

theorem runWord_fault_iff {w : CmdWord} {s : State} {f : Fault} :
    runWord w s = .fault f ↔ ∃ i, decode w = .ok i ∧ exec i s = .fault f := by
  rw [runWord]
  cases decode w <;> simp

theorem runWord_eq_refused_iff {w : CmdWord} {s : State} {r : Refusal} : runWord w s = .refused r ↔
    ∃ why, decode w = .error why ∧ r = .reservedWord s.position w why := by
  rw [runWord]
  cases decode w with
  | ok i => simp [exec_not_refused]
  | error why => simp [eq_comm]

/-- A step faults only where the command it runs does. -/
theorem step_fault_iff {s : State} {f : Fault} : step s = .fault f ↔
    ∃ n w, s.offered = .command n w ∧ runWord w s.endResponse = .fault f := by
  cases ho : s.offered with
  | idle => simp [step_idle ho]
  | reset => simp [step_reset ho]
  | command n w => simp [step_command ho]

theorem step_refused_iff {s : State} {r : Refusal} : step s = .refused r ↔
    ∃ n w, s.offered = .command n w ∧ runWord w s.endResponse = .refused r := by
  cases ho : s.offered with
  | idle => simp [step_idle ho]
  | reset => simp [step_reset ho]
  | command n w => simp [step_command ho]

/-- The place the block sees is that of the entry that carries the word (R112). -/
theorem position_endResponse_of_command {s : State} {n : Nat} {w : CmdWord}
    (h : s.offered = .command n w) : s.endResponse.position = some n := by
  rw [State.endResponse_position, State.position_command s h]

/-- Settles O18: a step stops only as the word it runs does, and the place both stops name is that
of the entry that carries the word. -/
theorem stopsNameTheCommand : Obligations.StopsNameTheCommand := by
  refine ⟨fun s f => ?fault, fun s r => ?refused⟩
  case fault =>
    rw [step_fault_iff]
    constructor
    · rintro ⟨n, w, ho, h⟩
      obtain ⟨i, hd, hi⟩ := runWord_fault_iff.1 h
      obtain ⟨mode, x, y, c, rfl, hv, rfl⟩ := exec_fault_iff.1 hi
      exact ⟨n, w, mode, x, y, c, ho, hd, hv,
        by rw [position_endResponse_of_command ho]⟩
    · rintro ⟨n, w, mode, x, y, c, ho, hd, hv, rfl⟩
      refine ⟨n, w, ho, runWord_fault_iff.2 ⟨_, hd, exec_fault_iff.2 ⟨mode, x, y, c, rfl, hv, ?_⟩⟩⟩
      rw [position_endResponse_of_command ho]
  case refused =>
    rw [step_refused_iff]
    refine exists_congr fun n => exists_congr fun w => ?_
    rw [runWord_eq_refused_iff]
    constructor
    · rintro ⟨ho, why, hd, rfl⟩
      exact ⟨why, ho, hd, by rw [position_endResponse_of_command ho]⟩
    · rintro ⟨why, ho, hd, rfl⟩
      exact ⟨ho, why, hd, by rw [position_endResponse_of_command ho]⟩

/-! ## OPACITY and the response -/

/-- Only SETOPA changes OPACITY (R18, R93). -/
theorem exec_opacity {i : Instr} {s t : State} (h : exec i s = .next t) :
    t.opacity = s.opacity ∨ i = .setopa t.opacity := by
  rcases exec_next_cases h with
    ⟨mode, bounds, x, y, c, -, hw⟩ | ⟨x, y, border, -, rfl⟩ | ⟨v, -, rfl⟩ | ⟨v, rfl, rfl⟩
  · rcases State.pixelWrite_next_effect hw with rfl | ⟨-, p, rfl⟩ <;> simp
  · exact .inl rfl
  · exact .inl rfl
  · exact .inr rfl

/-- Settles O30: of the three things a step can do, an idle edge keeps OPACITY. -/
theorem opacityWriters : Obligations.OpacityWriters := by
  intro s t h hne
  rcases step_next_cases h with ⟨-, rfl⟩ | ⟨ho, rfl⟩ | ⟨n, w, i, u, ho, hd, hu, rfl⟩
  · exact absurd rfl hne
  · exact .inl ⟨ho, rfl⟩
  · rcases exec_opacity hu with hsame | rfl
    · exact absurd hsame hne
    · exact .inr ⟨n, w, ho, hd⟩

/-- A command responds exactly if it is GET; any other keeps the response there was (R45). -/
theorem exec_rsp {i : Instr} {s t : State} (h : exec i s = .next t) :
    (∃ x y b, i = .get x y b ∧ t.rsp = some (s.fetched x y b)) ∨
      ((∀ x y b, i ≠ .get x y b) ∧ t.rsp = s.rsp) := by
  rcases exec_next_cases h with
    ⟨mode, bounds, x, y, c, rfl, hw⟩ | ⟨x, y, border, rfl, rfl⟩ | ⟨v, rfl, rfl⟩ | ⟨v, rfl, rfl⟩
  · refine .inr ⟨fun _ _ _ => ?_, ?_⟩
    · cases mode <;> cases bounds <;> exact nofun
    · rcases State.pixelWrite_next_effect hw with rfl | ⟨-, p, rfl⟩ <;> simp
  · exact .inl ⟨x, y, border, rfl, rfl⟩
  · exact .inr ⟨nofun, rfl⟩
  · exact .inr ⟨nofun, rfl⟩

/-- Settles O39: the step ends the last response first, so one that stands after it is its own. -/
theorem onlyGetResponds : Obligations.OnlyGetResponds := by
  intro s t h
  rcases step_next_cases h with ⟨ho, rfl⟩ | ⟨ho, rfl⟩ | ⟨n, w, i, u, ho, hd, hu, rfl⟩
  · simp [rspValid, ho]
  · simp [rspValid, ho]
  · rcases exec_rsp hu with ⟨x, y, b, rfl, hrsp⟩ | ⟨hno, hrsp⟩
    · exact iff_of_true (by simp [rspValid, hrsp]) ⟨n, w, x, y, b, ho, hd⟩
    · refine iff_of_false (by simp [rspValid, hrsp]) ?_
      rintro ⟨n', w', x, y, b, ho', hd'⟩
      cases ho.symm.trans ho'
      cases hd.symm.trans hd'
      exact hno x y b rfl

end Sys2Proof.Machine
end

section
/-! PROOFS. The frame of the pixel writes, what they draw and read, when they complete and in which
order they may be issued (spec/40_pixel_write.md R65, R68, R84; spec/20_memory.md R27, R36). -/

namespace Sys2Proof.Machine

/-! ## Completion and bounds (R68, R82, R130) -/

/-- Of the pixel writes, only the unchecked ones ask for valid coordinates. -/
theorem State.safeCommand_wpx (s : State) (mode : BlendMode) (bounds : BoundsMode) (x y : Int)
    (c : Pixel) : s.safeCommand (Instr.wpx mode bounds x y c) =
      match bounds with
      | .checked => true
      | .unchecked => s.valid x y := by
  cases bounds <;> cases mode <;> rfl

/-- Settles O19: GET, FILL and SETOPA always answer, a pixel write on valid coordinates blends, and
elsewhere a checked one does nothing. -/
theorem safeCommandCompletes : Obligations.SafeCommandCompletes := by
  intro i s hsafe
  rcases Instr.eq_wpx_or i with
    ⟨mode, bounds, x, y, c, rfl⟩ | ⟨x, y, border, rfl⟩ | ⟨v, rfl⟩ | ⟨v, rfl⟩
  · cases hv : s.valid x y with
    | true => exact ⟨_, exec_wpx_valid hv bounds⟩
    | false =>
      cases bounds with
      | checked => exact ⟨s, (exec_wpx ..).trans (State.pixelWrite_checked_invalid hv mode c)⟩
      | unchecked =>
        rw [State.safeCommand_wpx] at hsafe
        exact absurd (hsafe.symm.trans hv) (by decide)
  · exact ⟨_, exec_get x y border s⟩
  · exact ⟨_, exec_fill v s⟩
  · exact ⟨_, exec_setopa v s⟩

/-- Settles O25: out of range the bounds test of a checked write answers the state it was given. -/
theorem checkedOutOfRangeIsNop : Obligations.CheckedOutOfRangeIsNop := by
  intro s x y c hv
  have hnop (mode : BlendMode) := State.pixelWrite_checked_invalid hv mode c
  exact ⟨hnop .none, hnop .add, hnop .alpha, hnop .clip⟩

/-- Settles O28: on valid coordinates the bounds mode is not looked at. -/
theorem boundsModesAgree : Obligations.BoundsModesAgree := by
  intro mode s x y c hv
  rw [exec_wpx_valid hv, exec_wpx_valid hv]

/-! ## The frame (R84 (a)) -/

theorem State.afterBlend_frame (s : State) (mode : BlendMode) :
    s.afterBlend mode = { s with draws := (s.afterBlend mode).draws } := by
  cases mode <;> rfl

/-- Settles O27: a pixel write does nothing, or writes the sixteen bytes at its place and draws. -/
theorem pixelWriteFrame : Obligations.PixelWriteFrame := by
  intro mode bounds s t x y c h
  rw [exec_wpx] at h
  rcases State.pixelWrite_next_effect h with rfl | ⟨hv, p, rfl⟩
  · exact ⟨rfl, fun _ _ => rfl, fun _ => rfl⟩
  · refine ⟨?_, fun a ha => ?_, fun hinv => ?_⟩
    · rw [State.afterBlend_store, State.memWrite_store, State.afterBlend_frame, State.memWrite]
    · rw [State.afterBlend_store, State.memWrite_store,
        Memory.read_writePixel_other _ p (by rw [State.place]; omega)]
    · exact absurd (hv.symm.trans hinv) (by decide)

/-! ## What a mode draws (R65) -/

theorem State.blendAt_none (s : State) (idx : Nat) (c : Pixel) :
    s.blendAt .none idx c = s.memWrite idx c := rfl

theorem State.blendAt_add (s : State) (idx : Nat) (c : Pixel) : s.blendAt .add idx c =
    (s.memWrite idx (blendAdd (freeNaNs s.draws) c (s.memRead idx))).nextDraw := rfl

theorem State.blendAt_alpha (s : State) (idx : Nat) (c : Pixel) : s.blendAt .alpha idx c =
    (s.memWrite idx (blendAlpha (freeNaNs s.draws) c (s.memRead idx) s.opacity)).nextDraw := rfl

theorem State.blendAt_clip (s : State) (idx : Nat) (c : Pixel) :
    s.blendAt .clip idx c = if clipPasses c then s.memWrite idx c else s := by
  rw [State.blendAt, State.blend, blendClip]
  cases clipPasses c <;> rfl

/-- A draw counts on; the pixel just written is not touched by it. -/
theorem State.memRead_nextDraw_memWrite {s : State} (hs : Memory.wf s.store) (idx : Nat)
    (p : Pixel) : (s.memWrite idx p).nextDraw.memRead idx = p :=
  (State.memRead_congr (State.nextDraw_store _) idx).trans (State.memRead_memWrite_same hs idx p)

/-- Settles O24: Add and Alpha store what the current draw gives and count it, None and Clip at
most write the colour. -/
theorem drawsAreFresh : Obligations.DrawsAreFresh := by
  intro s t bounds x y c hs hv d
  refine ⟨fun h => ?add, fun h => ?alpha, fun h => ?none, fun h => ?clip⟩
  all_goals
    rw [exec_wpx_valid hv, State.place] at h
    cases h
  case add =>
    rw [State.blendAt_add, State.nextDraw_draws, State.memWrite_draws]
    exact ⟨rfl, State.memRead_nextDraw_memWrite hs _ _⟩
  case alpha =>
    rw [State.blendAt_alpha, State.nextDraw_draws, State.memWrite_draws]
    exact ⟨rfl, State.memRead_nextDraw_memWrite hs _ _⟩
  case none => rw [State.blendAt_none, State.memWrite_draws]
  case clip => rw [State.blendAt_clip]; split <;> simp

/-! ## Who reads OPACITY (R18) -/

theorem State.memWrite_setOpacity (s : State) (v : F32) (idx : Nat) (p : Pixel) :
    (s.setOpacity v).memWrite idx p = (s.memWrite idx p).setOpacity v := by
  rw [State.memWrite, State.memWrite, State.setOpacity, State.setOpacity]

theorem State.nextDraw_setOpacity (s : State) (v : F32) :
    (s.setOpacity v).nextDraw = s.nextDraw.setOpacity v := rfl

/-- No blend but Alpha's sees OPACITY: the new value passes through. -/
theorem State.blendAt_setOpacity {mode : BlendMode} (hmode : mode ≠ .alpha) (s : State) (v : F32)
    (idx : Nat) (c : Pixel) :
    (s.setOpacity v).blendAt mode idx c = (s.blendAt mode idx c).setOpacity v := by
  cases mode with
  | none => exact State.memWrite_setOpacity s v idx c
  | add =>
    have hread : (s.setOpacity v).memRead idx = s.memRead idx := State.memRead_congr rfl idx
    rw [State.blendAt_add, State.blendAt_add, hread, State.setOpacity_draws,
      State.memWrite_setOpacity, State.nextDraw_setOpacity]
  | alpha => exact absurd rfl hmode
  | clip =>
    rw [State.blendAt_clip, State.blendAt_clip, State.memWrite_setOpacity]
    split <;> rfl

/-- A pixel write that goes on, not an Alpha, goes on under any other OPACITY and keeps it. -/
theorem State.pixelWrite_setOpacity {mode : BlendMode} (hmode : mode ≠ .alpha)
    {bounds : BoundsMode} {s t : State} {x y : Int} {c : Pixel} (v : F32)
    (h : s.pixelWrite mode bounds x y c = .next t) :
    (s.setOpacity v).pixelWrite mode bounds x y c = .next (t.setOpacity v) := by
  rcases State.pixelWrite_next_cases h with ⟨hv, rfl⟩ | ⟨hv, rfl, rfl⟩
  · rw [State.pixelWrite_valid (s := s.setOpacity v) hv, State.place_setOpacity,
      State.blendAt_setOpacity hmode]
  · exact State.pixelWrite_checked_invalid (s := t.setOpacity v) hv mode c

/-- Settles O29: GET and FILL do not look at OPACITY, nor does a pixel write that is no Alpha. -/
theorem opacityReadByAlphaOnly : Obligations.OpacityReadByAlphaOnly := by
  intro i s t v hnoAlpha hnoSetopa h
  rcases exec_next_cases h with
    ⟨mode, bounds, x, y, c, rfl, hw⟩ | ⟨x, y, border, rfl, rfl⟩ | ⟨u, rfl, rfl⟩ | ⟨u, rfl, rfl⟩
  · have hmode : mode ≠ .alpha := by
      rintro rfl
      obtain ⟨hchecked, hunchecked⟩ := hnoAlpha x y c
      cases bounds with
      | checked => exact hchecked rfl
      | unchecked => exact hunchecked rfl
    rw [exec_wpx]
    exact State.pixelWrite_setOpacity hmode v hw
  · rfl
  · rfl
  · exact absurd rfl (hnoSetopa u)

/-! ## The order of writes (R27, R36) -/

/-- Settles O32: a checked None write is SET; an index is a place, and writes to two places commute,
while of two to one place the later is left. -/
theorem noneWritesOrder : Obligations.NoneWritesOrder := by
  intro s x y x' y' c c' hs hv hv'
  have hfirst := exec_set_of_valid hv c
  have hsecond := exec_set_of_valid hv' c'
  have hthen := exec_set_of_valid ((State.valid_memWrite s x' y' (s.place x y) c).trans hv') c'
  have hback := exec_set_of_valid ((State.valid_memWrite s x y (s.place x' y') c').trans hv) c
  refine ⟨_, _, _, _, hfirst, hsecond, hthen, hback, fun hne => ?_, fun heq => ?_⟩
  · have hplace : s.place x y ≠ s.place x' y' := fun h => hne <| by
      rw [← State.place_eq hv, ← State.place_eq hv', h]
    rw [State.place_memWrite, State.place_memWrite, State.memWrite_comm hs c c' hplace]
  · have hplace : s.place x y = s.place x' y' := congrArg Int.toNat heq
    rw [State.place_memWrite, hplace, State.memWrite_same hs]

end Sys2Proof.Machine
end

section
/-! PROOFS. The packed pixel, and what the ports show (spec/20_memory.md R31,
spec/30_encoding.md R54, R55); FILL (spec/41_buffer_ops.md R91). -/

namespace Sys2Proof.Machine

/-- Part of a field is part of the word. -/
theorem extractLsb'_of_field {n len k sub : Nat} (v : BitVec n) (start : Nat)
    (h : k + sub ≤ len) :
    (v.extractLsb' start len).extractLsb' k sub = v.extractLsb' (start + k) sub := by
  apply BitVec.eq_of_getLsbD_eq
  intro i hi
  have hlen : k + i < len := by omega
  simp [hi, hlen, Nat.add_assoc]

/-- Settles O9: unpacking reads the four channels back, and a byte at an end of the packed pixel is
one of a channel. -/
theorem packingOrder : Obligations.PackingOrder := by
  intro p
  obtain ⟨hr, hg, hb, ha⟩ := Pixel.mk.inj (Pixel.unpack_pack p)
  have hlow : p.byte 0 = p.r.extractLsb' 0 8 := by
    rw [← hr, extractLsb'_of_field _ _ (by decide)]
    rfl
  have hhigh : p.byte 15 = p.a.extractLsb' 24 8 := by
    rw [← ha, extractLsb'_of_field _ _ (by decide)]
    rfl
  exact ⟨hr, hg, hb, ha, hlow, hhigh⟩

/-! ## Buffer commands -/

/-- Settles O37: FILL writes the store only, SETOPA the register only. -/
theorem fillSetopaCommute : Obligations.FillSetopaCommute := fun s v o =>
  ⟨_, _, _, exec_fill v s, exec_setopa o s, exec_setopa o _, exec_fill v _⟩

/-- Settles O38: a byte equal to what an unlisted address reads as is not listed. -/
theorem fillWithInitialPixelIsResetStore : Obligations.FillWithInitialPixelIsResetStore :=
  fun s hs => ⟨_, exec_fill _ s, Memory.fill_initPixel hs.store⟩

/-! ## Ports -/

/-- A number below `2^31` fits a register and leaves its bit 31 clear (R15 to R17). -/
theorem register_of_lt {n : Nat} (h : n < 2 ^ 31) :
    (BitVec.ofNat 32 n).toNat = n ∧ (BitVec.ofNat 32 n).msb = false := by
  have hn : (BitVec.ofNat 32 n).toNat = n := by rw [BitVec.toNat_ofNat]; omega
  refine ⟨hn, ?_⟩
  rw [BitVec.msb_eq_decide, hn]
  simpa using h

/-- Settles O40: the three dimensions of the invariant are below `2^31`. -/
theorem statusPortValues : Obligations.StatusPortValues := by
  intro s hs
  obtain ⟨hw, hh, hwh⟩ := hs.dims
  obtain ⟨w1, w2⟩ := register_of_lt hw
  obtain ⟨h1, h2⟩ := register_of_lt hh
  obtain ⟨l1, l2⟩ := register_of_lt hwh
  rw [← hs.length_eq] at l1 l2
  exact ⟨w1, h1, l1.trans hs.length_eq, rfl, w2, h2, l2⟩

/-- The index of a valid target, on the scan-out port, is its place (R55). -/
theorem toNat_ofInt_index {s : State} (hs : s.Inv) {x y : Int} (hv : s.valid x y = true) :
    (BitVec.ofInt 31 (s.index x y)).toNat = s.place x y := by
  have hlt := State.place_lt hv
  obtain ⟨-, -, hmax⟩ := hs.dims
  rw [← hs.length_eq] at hmax
  rw [← State.place_eq hv, BitVec.ofInt_natCast, BitVec.toNat_ofNat]
  omega

/-- Settles O41: the scan-out index of valid coordinates is the place GET reads. -/
theorem scanOutShowsStore : Obligations.ScanOutShowsStore := by
  intro sample s x y b hs hv
  have hscan : soVal sample s (BitVec.ofInt 31 (s.index x y)) = (s.memRead (s.place x y)).pack := by
    rw [soVal, toNat_ofInt_index hs hv, if_pos (State.place_lt hv)]
  refine ⟨_, exec_get x y b s, ?_, ?_⟩
  · rw [hscan, State.fetched_of_valid hv]
    rfl
  · rw [hscan, Pixel.unpack_pack, State.place]

end Sys2Proof.Machine
end

section
/-! PROOFS. The blend functions of Add, Alpha and Clip at the values that are neutral, absorbing or
NaN for them (spec/40_pixel_write.md R65, R70 to R72, R75, R77, R84). -/

namespace Sys2Proof.Machine

/-! ## 1.0 in a product (R61) -/

theorem isFinite_one : F32.isFinite Config.one = true := by decide

/-- The magnitude of 1.0 is the unit's inverse, so it scales nothing. -/
theorem magnitude_one : F32.magnitude Config.one = 2 ^ 149 := by decide

/-- Any value but a NaN times 1.0 is itself. -/
theorem fmul_one {n v : F32} (hv : F32.isNaN v = false) : fmul n v Config.one = v := by
  have hsign : (F32.sign v ^^ F32.sign Config.one) = F32.sign v := Bool.xor_false _
  rcases F32.isFinite_or_isInf hv with hfin | hinf
  · rw [fmul_finite hfin isFinite_one, hsign, magnitude_one, F32.magnitude_eq,
      roundBits_magnitudeOf ((F32.isFinite_iff v).1 hfin), F32.ofSignBits_self]
  · have hnotZero : F32.isZero v = false := by
      rw [← Bool.not_eq_true, F32.isZero_iff, (F32.isInf_iff v).1 hinf]
      decide
    rw [fmul_inf hv (by decide) (.inl hinf) hnotZero (by decide), hsign,
      ← (F32.isInf_iff v).1 hinf, F32.ofSignBits_self]

/-- Settles O47: rounding gives the factor's own magnitude back, and an infinity stays. -/
theorem opacityOneIsNeutral : Obligations.OpacityOneIsNeutral := fun _ _ hv => fmul_one hv

/-! ## Zeros in a product and in a sum (R61, R62) -/

theorem F32.isFinite_of_isZero {v : F32} (h : F32.isZero v = true) : F32.isFinite v = true := by
  rw [F32.isFinite_iff, (F32.isZero_iff v).1 h]
  decide

theorem F32.exact_of_isZero {v : F32} (h : F32.isZero v = true) : F32.exact v = 0 := by
  rw [← Int.natAbs_eq_zero, F32.exact_natAbs, F32.magnitude_eq_zero]
  exact h

theorem F32.isZero_negate {v : F32} (h : F32.isZero v = true) :
    F32.isZero (F32.negate v) = true := by
  rw [F32.isZero_iff, F32.low_negate, ← F32.isZero_iff]
  exact h

/-- A zero other than `-0.0` has a clear sign bit. -/
theorem F32.sign_of_isZero {v : F32} (h : F32.isZero v = true) (hne : v ≠ 0x80000000#32) :
    F32.sign v = false := by
  refine Bool.of_not_eq_true fun hs => hne (F32.ext (hs.trans (by decide)) ?_)
  rw [(F32.isZero_iff v).1 h]
  decide

/-- A zero times a finite value is a zero. -/
theorem isZero_fmul {n a b : F32} (ha : F32.isFinite a = true) (hb : F32.isFinite b = true)
    (hz : F32.isZero a = true ∨ F32.isZero b = true) : F32.isZero (fmul n a b) = true := by
  have hmag : F32.magnitude a * F32.magnitude b = 0 := by
    rw [Nat.mul_eq_zero, F32.magnitude_eq_zero, F32.magnitude_eq_zero]
    exact hz
  rw [fmul_finite ha hb, hmag, roundBits_zero, F32.isZero_iff, F32.low_ofSignBits _ (by decide)]

/-- A finite value is its exact value, rounded under its sign. -/
theorem F32.ofSignBits_exact {v : F32} (h : F32.isFinite v = true) :
    F32.ofSignBits (F32.sign v) (roundBits 0 (F32.exact v).natAbs) = v := by
  have hround := roundBits_magnitudeOf (k := 0) ((F32.isFinite_iff v).1 h)
  rw [Nat.pow_zero, Nat.mul_one] at hround
  rw [F32.exact_natAbs, F32.magnitude_eq, hround, F32.ofSignBits_self]

/-- The sign of a sum with a zero is the other operand's, unless that is `-0.0`. -/
theorem F32.sumSign_isZero {v z : F32} (hz : F32.isZero z = true) (hne : v ≠ 0x80000000#32) :
    F32.sumSign v z = F32.sign v := by
  have hsum : F32.exact v + F32.exact z = F32.exact v := by rw [F32.exact_of_isZero hz, add_zero]
  by_cases h0 : F32.exact v = 0
  · have hv : F32.isZero v = true := by
      rw [← F32.magnitude_eq_zero, ← F32.exact_natAbs, h0, Int.natAbs_zero]
    rw [F32.sumSign_of_zero (hsum.trans h0), F32.sign_of_isZero hv hne, Bool.false_and]
  · rw [F32.sumSign_of_ne_zero (by rwa [hsum]), hsum]
    cases hs : F32.sign v with
    | false => exact decide_eq_false (not_lt.2 (F32.exact_nonneg hs))
    | true => exact decide_eq_true (lt_of_le_of_ne (F32.exact_nonpos hs) h0)

/-- A zero of either sign added to a value leaves it, unless that is a NaN or `-0.0`. -/
theorem fadd_zero_right {n v z : F32} (hz : F32.isZero z = true) (hv : F32.isNaN v = false)
    (hne : v ≠ 0x80000000#32) : fadd n v z = v := by
  have hzfin := F32.isFinite_of_isZero hz
  rcases F32.isFinite_or_isInf hv with hfin | hinf
  · rw [fadd_finite_exact hfin hzfin, F32.sumSign_isZero hz hne, F32.exact_of_isZero hz, add_zero,
      F32.ofSignBits_exact hfin]
  · refine fadd_inf_left hinf (F32.isNaN_of_isFinite hzfin) fun hzinf => ?_
    rw [F32.isInf_of_isFinite hzfin] at hzinf
    cases hzinf

theorem fadd_comm_of_isFinite {n a b : F32} (ha : F32.isFinite a = true)
    (hb : F32.isFinite b = true) : fadd n a b = fadd n b a := by
  rw [fadd_finite ha hb, fadd_finite hb ha, add_comm, Bool.and_comm]

theorem fadd_zero_left {n v z : F32} (hz : F32.isZero z = true) (hv : F32.isNaN v = false)
    (hne : v ≠ 0x80000000#32) : fadd n z v = v := by
  have hzfin := F32.isFinite_of_isZero hz
  rcases F32.isFinite_or_isInf hv with hfin | hinf
  · rw [fadd_comm_of_isFinite hzfin hfin, fadd_zero_right hz hv hne]
  · exact fadd_inf_right hzfin hinf

/-! ## Alpha at an opaque and at a transparent source (R77) -/

/-- An opaque lane: the source's channel, as the destination's part is a zero (R71). -/
theorem alphaLane_one_zero {n sc dc : F32} (hd : F32.isFinite dc = true)
    (hs : F32.isNaN sc = false) (hne : sc ≠ 0x80000000#32) :
    alphaLane n sc dc Config.one 0#32 = sc := by
  have hz : F32.isZero (fmul n dc 0#32) = true := isZero_fmul hd (by decide) (.inr (by decide))
  rw [alphaLane, fmul_one hs, fadd_zero_right hz hs hne]

/-- A transparent lane: the destination's channel, as the source's part is a zero (R71). -/
theorem alphaLane_zero_one {n sc dc a : F32} (ha : F32.isZero a = true)
    (hs : F32.isFinite sc = true) (hd : F32.isNaN dc = false) (hne : dc ≠ 0x80000000#32) :
    alphaLane n sc dc a Config.one = dc := by
  rw [alphaLane, fmul_one hd,
    fadd_zero_left (isZero_fmul hs (F32.isFinite_of_isZero ha) (.inr ha)) hd hne]

/-- Settles O48: `a` is 1.0 and `na` is `+0.0`. -/
theorem opaqueAlphaIsSource : Obligations.OpaqueAlphaIsSource := by
  intro nan s d hsa ⟨dr, dg, db, da⟩ ⟨sr, sg, sb⟩ ⟨nr, ng, nb⟩
  have ha : fmul nan.a s.a 0x3F800000#32 = Config.one := by rw [hsa]; exact fmul_one (by decide)
  have hna : fsub nan.a Config.one Config.one = 0#32 := fsub_self isFinite_one nan.a
  have halpha : fadd nan.a Config.one (fmul nan.a d.a 0#32) = Config.one :=
    fadd_zero_right (isZero_fmul da (by decide) (.inr (by decide))) (by decide) (by decide)
  rw [blendAlpha, ha, hna, alphaLane_one_zero dr sr nr, alphaLane_one_zero dg sg ng,
    alphaLane_one_zero db sb nb, halpha, ← show s.a = Config.one from hsa]

/-- Settles O49: `a` is a zero and `na` is 1.0. -/
theorem transparentAlphaIsDestination : Obligations.TransparentAlphaIsDestination := by
  intro nan s d o ha ⟨sr, sg, sb⟩ ⟨dr, dg, db, da⟩ ⟨nr, ng, nb, na⟩
  have hna : fsub nan.a Config.one (fmul nan.a s.a o) = Config.one :=
    fadd_zero_right (F32.isZero_negate ha) (by decide) (by decide)
  rw [blendAlpha, hna, alphaLane_zero_one ha sr dr nr, alphaLane_zero_one ha sg dg ng,
    alphaLane_zero_one ha sb db nb, fmul_one da, fadd_zero_left ha da na]

/-! ## Add (R70, R75) -/

/-- A colour lane of Add whose source part is a zero keeps the destination's channel. -/
theorem fadd_fmul_zero {n sc dc a : F32} (ha : F32.isZero a = true)
    (hs : F32.isFinite sc = true) (hd : F32.isNaN dc = false) (hne : dc ≠ 0x80000000#32) :
    fadd n (fmul n sc a) dc = dc :=
  fadd_zero_left (isZero_fmul hs (F32.isFinite_of_isZero ha) (.inr ha)) hd hne

/-- Settles O51: a finite colour times `+0.0` is a zero. -/
theorem addOfZeroAlphaKeepsColour : Obligations.AddOfZeroAlphaKeepsColour := by
  intro nan s d hsa ⟨sr, sg, sb⟩ ⟨dr, dg, db⟩ ⟨nr, ng, nb⟩
  have ha : F32.isZero s.a = true := by rw [hsa]; decide
  rw [blendAdd, fadd_fmul_zero ha sr dr nr, fadd_fmul_zero ha sg dg ng, fadd_fmul_zero ha sb db nb]
  rfl

/-- Settles O53: at source alpha 1.0 a lane is the plain sum, which passes 1.0 in R and keeps the
destination where the source's colour is `+0.0`. -/
theorem addExampleNotClamped : Obligations.AddExampleNotClamped := by
  intro nan dA
  have hhalf (n : F32) : fmul n 0x3F000000#32 0x3F800000#32 = 0x3F000000#32 := fmul_one (by decide)
  have hzero (n : F32) : fmul n 0x00000000#32 0x3F800000#32 = 0x00000000#32 := fmul_one (by decide)
  have hsum (n : F32) : fadd n 0x3F000000#32 0x3F4CCCCD#32 = 0x3FA66666#32 := by
    rw [fadd_finite (by decide) (by decide)]
    decide +kernel
  have hkeep (n : F32) : fadd n 0x00000000#32 0x3F4CCCCD#32 = 0x3F4CCCCD#32 :=
    fadd_zero_left (by decide) (by decide) (by decide)
  rw [blendAdd, hhalf, hzero, hzero, hsum, hkeep, hkeep]
  rfl

/-- Settles O31: `(1, 0.5, 0.25, 0.5)` on `(0, 0.5, 1, 0.5)`, where neither blend meets a NaN. -/
theorem addAlphaNotIdempotent : Obligations.AddAlphaNotIdempotent :=
  ⟨⟨0x7FC00000#32, 0x7FC00000#32, 0x7FC00000#32, 0x7FC00000#32⟩,
    ⟨0x3F800000#32, 0x3F000000#32, 0x3E800000#32, 0x3F000000#32⟩,
    ⟨0x00000000#32, 0x3F000000#32, 0x3F800000#32, 0x3F000000#32⟩,
    by decide +kernel, by decide +kernel⟩

/-! ## NaNs (R65, R67) -/

theorem F32.isNaN_negate (v : F32) : F32.isNaN (F32.negate v) = F32.isNaN v := by
  rw [Bool.eq_iff_iff, F32.isNaN_iff, F32.isNaN_iff, F32.low_negate]

/-- A NaN factor makes the product the lane's NaN, and that the sum. -/
theorem fadd_fmul_of_isNaN {n sc a v : F32} (ha : F32.isNaN a = true) (hn : F32.isNaN n = true) :
    fadd n (fmul n sc a) v = n := by
  rw [fmul_nan (.inr ha), fadd_nan (.inl hn)]

theorem alphaLane_of_isNaN {n sc dc a na : F32} (ha : F32.isNaN a = true)
    (hn : F32.isNaN n = true) : alphaLane n sc dc a na = n :=
  fadd_fmul_of_isNaN ha hn

/-- Settles O50: a NaN `a` makes `na` a NaN, and a NaN factor each product. -/
theorem nanAlphaSpreads : Obligations.NaNAlphaSpreads := by
  intro draw s d o nan
  have hnan : Pixel.AllNaN nan := allNaN_freeNaNs draw
  clear_value nan
  obtain ⟨hr, hg, hb, ha⟩ := hnan
  refine ⟨fun h => ?alpha, fun h => ?add⟩
  case alpha =>
    have hna : fsub nan.a Config.one nan.a = nan.a :=
      fadd_nan (.inr ((F32.isNaN_negate nan.a).trans ha))
    rw [blendAlpha, fmul_nan h, hna, alphaLane_of_isNaN ha hr, alphaLane_of_isNaN ha hg,
      alphaLane_of_isNaN ha hb, fadd_nan (.inl ha)]
  case add =>
    rw [blendAdd, fadd_fmul_of_isNaN h hr, fadd_fmul_of_isNaN h hg, fadd_fmul_of_isNaN h hb]
    rfl

/-- Two runs computed `u` and `u'` for a lane with the NaNs `n` and `n'`: each run's own NaN, or one
value, which is no NaN (R65). -/
def DrawnOrSame (n n' u u' : F32) : Prop := (u = n ∧ u' = n') ∨ (u = u' ∧ F32.isNaN u = false)

/-- Operands of two runs that differ only where both are NaNs. -/
def SameOrNaN (u u' : F32) : Prop := u = u' ∨ (F32.isNaN u = true ∧ F32.isNaN u' = true)

theorem SameOrNaN.refl (u : F32) : SameOrNaN u u := .inl rfl

/-- A computed channel may be an operand of the next operation, in any lane. -/
theorem DrawnOrSame.sameOrNaN {n n' u u' : F32} (h : DrawnOrSame n n' u u')
    (hn : F32.isNaN n = true) (hn' : F32.isNaN n' = true) : SameOrNaN u u' := by
  rcases h with ⟨rfl, rfl⟩ | ⟨rfl, -⟩
  · exact .inr ⟨hn, hn'⟩
  · exact .inl rfl

/-- An operation that passes NaNs on, and else answers the given NaN always or never. -/
structure DrawsNaN (op : F32 → F32 → F32 → F32) : Prop where
  nan : ∀ {n a b}, F32.isNaN a = true ∨ F32.isNaN b = true → op n a b = n
  cases : ∀ n n' a b, DrawnOrSame n n' (op n a b) (op n' a b)

theorem DrawsNaN.drawnOrSame {op : F32 → F32 → F32 → F32} (hop : DrawsNaN op)
    {n n' a a' b b' : F32} (ha : SameOrNaN a a') (hb : SameOrNaN b b') :
    DrawnOrSame n n' (op n a b) (op n' a' b') := by
  rcases ha with rfl | ⟨ha, ha'⟩
  · rcases hb with rfl | ⟨hb, hb'⟩
    · exact hop.cases n n' a b
    · exact .inl ⟨hop.nan (.inr hb), hop.nan (.inr hb')⟩
  · exact .inl ⟨hop.nan (.inl ha), hop.nan (.inl ha')⟩

theorem fmul_drawsNaN : DrawsNaN fmul where
  nan := fmul_nan
  cases n n' a b := by
    simp only [fmul]
    split_ifs
    · exact .inl ⟨rfl, rfl⟩
    · exact .inl ⟨rfl, rfl⟩
    · exact .inr ⟨rfl, F32.isNaN_ofSignBits _ le_rfl⟩
    · exact .inr ⟨rfl, F32.isNaN_ofSignBits _ (roundBits_le _ _)⟩

theorem fadd_drawsNaN : DrawsNaN fadd where
  nan := fadd_nan
  cases n n' a b := by
    simp only [fadd]
    split_ifs with hnan hinf hopposite hinf' hzero
    · exact .inl ⟨rfl, rfl⟩
    · exact .inl ⟨rfl, rfl⟩
    · exact .inr ⟨rfl, F32.isNaN_of_isInf hinf⟩
    · exact .inr ⟨rfl, F32.isNaN_of_isInf hinf'⟩
    · exact .inr ⟨rfl, F32.isNaN_ofSignBits _ (by decide)⟩
    · exact .inr ⟨rfl, F32.isNaN_ofSignBits _ (roundBits_le _ _)⟩

theorem fsub_drawnOrSame {n n' a a' b b' : F32} (ha : SameOrNaN a a') (hb : SameOrNaN b b') :
    DrawnOrSame n n' (fsub n a b) (fsub n' a' b') := by
  refine fadd_drawsNaN.drawnOrSame ha ?_
  rcases hb with rfl | ⟨hb, hb'⟩
  · exact .inl rfl
  · exact .inr ⟨(F32.isNaN_negate b).trans hb, (F32.isNaN_negate b').trans hb'⟩

section
variable {n n' : F32} (hn : F32.isNaN n = true) (hn' : F32.isNaN n' = true)
include hn hn'

/-- A product of the lane, added to what the destination gives. -/
theorem mulAdd_drawnOrSame {u u' v v' w w' : F32} (hu : SameOrNaN u u') (hv : SameOrNaN v v')
    (hw : SameOrNaN w w') :
    DrawnOrSame n n' (fadd n (fmul n u v) w) (fadd n' (fmul n' u' v') w') :=
  fadd_drawsNaN.drawnOrSame ((fmul_drawsNaN.drawnOrSame hu hv).sameOrNaN hn hn') hw

theorem alphaLane_drawnOrSame {a a' na na' : F32} (ha : SameOrNaN a a') (hna : SameOrNaN na na')
    (sc dc : F32) : DrawnOrSame n n' (alphaLane n sc dc a na) (alphaLane n' sc dc a' na') :=
  mulAdd_drawnOrSame hn hn' (.refl sc) ha
    ((fmul_drawsNaN.drawnOrSame (.refl dc) hna).sameOrNaN hn hn')

end

section
variable {nan nan' : Pixel} (hnan : Pixel.AllNaN nan) (hnan' : Pixel.AllNaN nan') (s d : Pixel)
include hnan hnan'

/-- Each channel of an Add; the stored alpha is no computed one. -/
theorem blendAdd_drawnOrSame {ch : Pixel → F32}
    (hch : ch = Pixel.r ∨ ch = Pixel.g ∨ ch = Pixel.b ∨ ch = Pixel.a) :
    DrawnOrSame (ch nan) (ch nan') (ch (blendAdd nan s d)) (ch (blendAdd nan' s d)) := by
  obtain ⟨hr, hg, hb, -⟩ := hnan
  obtain ⟨hr', hg', hb', -⟩ := hnan'
  rcases hch with rfl | rfl | rfl | rfl
  · exact mulAdd_drawnOrSame hr hr' (.refl s.r) (.refl s.a) (.refl d.r)
  · exact mulAdd_drawnOrSame hg hg' (.refl s.g) (.refl s.a) (.refl d.g)
  · exact mulAdd_drawnOrSame hb hb' (.refl s.b) (.refl s.a) (.refl d.b)
  · exact .inr ⟨rfl, F32.isNaN_of_isFinite isFinite_one⟩

/-- Each channel of an Alpha: the two runs' `a` and `na` differ only where both are NaNs. -/
theorem blendAlpha_drawnOrSame {ch : Pixel → F32} (o : F32)
    (hch : ch = Pixel.r ∨ ch = Pixel.g ∨ ch = Pixel.b ∨ ch = Pixel.a) :
    DrawnOrSame (ch nan) (ch nan') (ch (blendAlpha nan s d o)) (ch (blendAlpha nan' s d o)) := by
  obtain ⟨hr, hg, hb, ha⟩ := hnan
  obtain ⟨hr', hg', hb', ha'⟩ := hnan'
  have hA : SameOrNaN (fmul nan.a s.a o) (fmul nan'.a s.a o) :=
    (fmul_drawsNaN.drawnOrSame (.refl s.a) (.refl o)).sameOrNaN ha ha'
  have hNa : SameOrNaN (fsub nan.a Config.one (fmul nan.a s.a o))
      (fsub nan'.a Config.one (fmul nan'.a s.a o)) :=
    (fsub_drawnOrSame (.refl Config.one) hA).sameOrNaN ha ha'
  rcases hch with rfl | rfl | rfl | rfl
  · exact alphaLane_drawnOrSame hr hr' hA hNa s.r d.r
  · exact alphaLane_drawnOrSame hg hg' hA hNa s.g d.g
  · exact alphaLane_drawnOrSame hb hb' hA hNa s.b d.b
  · exact fadd_drawsNaN.drawnOrSame hA
      ((fmul_drawsNaN.drawnOrSame (.refl d.a) hNa).sameOrNaN ha ha')

end

/-- Settles O46: two runs with different draws compute each channel from operands that differ only
where both are NaNs. -/
theorem computedNaNIsDrawn : Obligations.ComputedNaNIsDrawn :=
  ⟨F32.isNaN_freeNaN, fun _ _ s d o _ hnan hnan' hch =>
    ⟨blendAdd_drawnOrSame hnan hnan' s d hch, blendAlpha_drawnOrSame hnan hnan' s d o hch⟩⟩

/-! ## The alpha test of Clip (R72) -/

/-- Settles O52: the comparison run on each alpha. -/
theorem clipThresholdStrict : Obligations.ClipThresholdStrict := by
  unfold Obligations.ClipThresholdStrict
  decide

end Sys2Proof.Machine
end
